-- ==== Sys2Proof/Word.lean ====
section
/-!
DEFINITION. The word types of the CHIP-8 core (spec/00_scope.md R6, R9, R10).
A `BitVec` stands where the spec treats a value as bits (register contents, addresses being computed, fields of
an opcode); a register number, a key number and a row count are numbers `0..15`.
-/

namespace Sys2Proof

/-- A memory byte, or the contents of a general register or timer (R6: 8 bits). -/
abbrev Byte := BitVec 8

/-- A 16-bit word: an opcode, or the contents of `I`, `PC` or a stack entry (R6). -/
abbrev Word := BitVec 16

/-- The 12-bit address literal NNN of an opcode (R81). -/
abbrev Addr := BitVec 12

/-- The number of a general register, `V0`..`VF`: the value of an X or Y field (R21, R83). -/
abbrev RegIndex := Fin 16

/-- The row count N of DXYN, `0..15` (R81, R83). -/
abbrev RowCount := Fin 16

/-- A CHIP-8 key code, `0x0`..`0xF` (R34). -/
abbrev KeyIndex := Fin 16

/-- The register that doubles as the flag (R22, R24). -/
abbrev VF : RegIndex := 15

end Sys2Proof
end

