-- ==== Sys2Proof/Syntax.lean ====
section
/-!
DEFINITION. The 34 instructions of spec/opcode_table.json, one constructor per row, in the table's order.
Operands have the types of the encoding's fields (spec/30_encoding.md R81, R83): register numbers and row counts are
`0..15`, NN is a byte, NNN is 12 bits.
-/

namespace Sys2Proof

/-- The CHIP-8 instruction set (R2, R82, R93). Each docstring gives the row's pattern and its assembler form. -/
inductive Instr where
  /-- 00E0 `CLS`. -/
  | cls
  /-- 00EE `RET`. -/
  | ret
  /-- 1NNN `JP addr`. -/
  | jp (nnn : Addr)
  /-- 2NNN `CALL addr`. -/
  | call (nnn : Addr)
  /-- 3XNN `SE Vx, byte`. -/
  | seByte (x : RegIndex) (nn : Byte)
  /-- 4XNN `SNE Vx, byte`. -/
  | sneByte (x : RegIndex) (nn : Byte)
  /-- 5XY0 `SE Vx, Vy`. -/
  | seReg (x y : RegIndex)
  /-- 6XNN `LD Vx, byte`. -/
  | ldByte (x : RegIndex) (nn : Byte)
  /-- 7XNN `ADD Vx, byte`. -/
  | addByte (x : RegIndex) (nn : Byte)
  /-- 8XY0 `LD Vx, Vy`. -/
  | ldReg (x y : RegIndex)
  /-- 8XY1 `OR Vx, Vy`. -/
  | orReg (x y : RegIndex)
  /-- 8XY2 `AND Vx, Vy`. -/
  | andReg (x y : RegIndex)
  /-- 8XY3 `XOR Vx, Vy`. -/
  | xorReg (x y : RegIndex)
  /-- 8XY4 `ADD Vx, Vy`. -/
  | addReg (x y : RegIndex)
  /-- 8XY5 `SUB Vx, Vy`. -/
  | subReg (x y : RegIndex)
  /-- 8XY6 `SHR Vx, Vy` (Vy is encoded but not read). -/
  | shrReg (x y : RegIndex)
  /-- 8XY7 `SUBN Vx, Vy`. -/
  | subnReg (x y : RegIndex)
  /-- 8XYE `SHL Vx, Vy` (Vy is encoded but not read). -/
  | shlReg (x y : RegIndex)
  /-- 9XY0 `SNE Vx, Vy`. -/
  | sneReg (x y : RegIndex)
  /-- ANNN `LD I, addr`. -/
  | ldI (nnn : Addr)
  /-- BNNN `JP V0, addr`. -/
  | jpV0 (nnn : Addr)
  /-- CXNN `RND Vx, byte`. -/
  | rndByte (x : RegIndex) (nn : Byte)
  /-- DXYN `DRW Vx, Vy, nibble`. -/
  | drw (x y : RegIndex) (n : RowCount)
  /-- EX9E `SKP Vx`. -/
  | skp (x : RegIndex)
  /-- EXA1 `SKNP Vx`. -/
  | sknp (x : RegIndex)
  /-- FX07 `LD Vx, DT`. -/
  | ldVxDt (x : RegIndex)
  /-- FX0A `LD Vx, K`. -/
  | ldVxKey (x : RegIndex)
  /-- FX15 `LD DT, Vx`. -/
  | ldDtVx (x : RegIndex)
  /-- FX18 `LD ST, Vx`. -/
  | ldStVx (x : RegIndex)
  /-- FX1E `ADD I, Vx`. -/
  | addIVx (x : RegIndex)
  /-- FX29 `LD F, Vx`. -/
  | ldFVx (x : RegIndex)
  /-- FX33 `LD B, Vx`. -/
  | ldBVx (x : RegIndex)
  /-- FX55 `LD [I], Vx`. -/
  | storeRegs (x : RegIndex)
  /-- FX65 `LD Vx, [I]`. -/
  | loadRegs (x : RegIndex)
deriving DecidableEq, Repr

end Sys2Proof
end

