-- ==== Sys2Proof/WellFormed.lean ====
section
/-!
DEFINITION. What makes an instruction and an opcode word well formed.
The operand checks are those of spec/30_encoding.md R83; the opcode table (masks and patterns of
spec/opcode_table.json) says which words are instructions at all (R90), independently of the decoder's dispatch.
-/

namespace Sys2Proof

/-- A register number, key number or row count: four bits of the opcode (R81, R83). -/
def nibbleOk (n : Nat) : Bool := decide (n < 16)

/-- A byte literal NN: eight bits (R83). -/
def byteOk (n : Nat) : Bool := decide (n < 256)

/-- An address literal NNN: twelve bits, at most 0xFFF (R83). -/
def addrOk (n : Nat) : Bool := decide (n < 4096)

/-- Every operand is a value its field can hold (R83). The operand types of `Instr` admit no other value, so every term of
`Instr` passes (Laws/Encoding.lean, `Instr.wellFormed_eq_true`). -/
def Instr.wellFormed : Instr → Bool
  | .cls => true
  | .ret => true
  | .jp nnn => addrOk nnn.toNat
  | .call nnn => addrOk nnn.toNat
  | .seByte x nn => nibbleOk x.val && byteOk nn.toNat
  | .sneByte x nn => nibbleOk x.val && byteOk nn.toNat
  | .seReg x y => nibbleOk x.val && nibbleOk y.val
  | .ldByte x nn => nibbleOk x.val && byteOk nn.toNat
  | .addByte x nn => nibbleOk x.val && byteOk nn.toNat
  | .ldReg x y => nibbleOk x.val && nibbleOk y.val
  | .orReg x y => nibbleOk x.val && nibbleOk y.val
  | .andReg x y => nibbleOk x.val && nibbleOk y.val
  | .xorReg x y => nibbleOk x.val && nibbleOk y.val
  | .addReg x y => nibbleOk x.val && nibbleOk y.val
  | .subReg x y => nibbleOk x.val && nibbleOk y.val
  | .shrReg x y => nibbleOk x.val && nibbleOk y.val
  | .subnReg x y => nibbleOk x.val && nibbleOk y.val
  | .shlReg x y => nibbleOk x.val && nibbleOk y.val
  | .sneReg x y => nibbleOk x.val && nibbleOk y.val
  | .ldI nnn => addrOk nnn.toNat
  | .jpV0 nnn => addrOk nnn.toNat
  | .rndByte x nn => nibbleOk x.val && byteOk nn.toNat
  | .drw x y n => nibbleOk x.val && nibbleOk y.val && nibbleOk n.val
  | .skp x => nibbleOk x.val
  | .sknp x => nibbleOk x.val
  | .ldVxDt x => nibbleOk x.val
  | .ldVxKey x => nibbleOk x.val
  | .ldDtVx x => nibbleOk x.val
  | .ldStVx x => nibbleOk x.val
  | .addIVx x => nibbleOk x.val
  | .ldFVx x => nibbleOk x.val
  | .ldBVx x => nibbleOk x.val
  | .storeRegs x => nibbleOk x.val
  | .loadRegs x => nibbleOk x.val

/-- The row of spec/opcode_table.json an instruction belongs to, by the row's mnemonic. -/
def Instr.mnemonic : Instr → String
  | .cls => "00E0"
  | .ret => "00EE"
  | .jp _ => "1NNN"
  | .call _ => "2NNN"
  | .seByte _ _ => "3XNN"
  | .sneByte _ _ => "4XNN"
  | .seReg _ _ => "5XY0"
  | .ldByte _ _ => "6XNN"
  | .addByte _ _ => "7XNN"
  | .ldReg _ _ => "8XY0"
  | .orReg _ _ => "8XY1"
  | .andReg _ _ => "8XY2"
  | .xorReg _ _ => "8XY3"
  | .addReg _ _ => "8XY4"
  | .subReg _ _ => "8XY5"
  | .shrReg _ _ => "8XY6"
  | .subnReg _ _ => "8XY7"
  | .shlReg _ _ => "8XYE"
  | .sneReg _ _ => "9XY0"
  | .ldI _ => "ANNN"
  | .jpV0 _ => "BNNN"
  | .rndByte _ _ => "CXNN"
  | .drw _ _ _ => "DXYN"
  | .skp _ => "EX9E"
  | .sknp _ => "EXA1"
  | .ldVxDt _ => "FX07"
  | .ldVxKey _ => "FX0A"
  | .ldDtVx _ => "FX15"
  | .ldStVx _ => "FX18"
  | .addIVx _ => "FX1E"
  | .ldFVx _ => "FX29"
  | .ldBVx _ => "FX33"
  | .storeRegs _ => "FX55"
  | .loadRegs _ => "FX65"

/-- One row of spec/opcode_table.json: a word `w` is in the row when `w &&& mask = pattern`. -/
structure OpcodeRow where
  /-- The row's mnemonic, letter for letter. -/
  mnemonic : String
  /-- The row's "mask". -/
  mask : Word
  /-- The row's "match". -/
  pattern : Word
deriving DecidableEq, Repr

/-- Does the word lie in the row? -/
def OpcodeRow.holds (r : OpcodeRow) (w : Word) : Bool := decide (w &&& r.mask = r.pattern)

/-- Rows of families 0 to 7. -/
def opcodeTableLow : List OpcodeRow :=
  [⟨"00E0", 0xFFFF, 0x00E0⟩, ⟨"00EE", 0xFFFF, 0x00EE⟩, ⟨"1NNN", 0xF000, 0x1000⟩, ⟨"2NNN", 0xF000, 0x2000⟩] ++
  [⟨"3XNN", 0xF000, 0x3000⟩, ⟨"4XNN", 0xF000, 0x4000⟩, ⟨"5XY0", 0xF00F, 0x5000⟩] ++
  [⟨"6XNN", 0xF000, 0x6000⟩, ⟨"7XNN", 0xF000, 0x7000⟩]

/-- Rows of families 8 and 9. -/
def opcodeTableAlu : List OpcodeRow :=
  [⟨"8XY0", 0xF00F, 0x8000⟩, ⟨"8XY1", 0xF00F, 0x8001⟩, ⟨"8XY2", 0xF00F, 0x8002⟩, ⟨"8XY3", 0xF00F, 0x8003⟩] ++
  [⟨"8XY4", 0xF00F, 0x8004⟩, ⟨"8XY5", 0xF00F, 0x8005⟩, ⟨"8XY6", 0xF00F, 0x8006⟩, ⟨"8XY7", 0xF00F, 0x8007⟩] ++
  [⟨"8XYE", 0xF00F, 0x800E⟩, ⟨"9XY0", 0xF00F, 0x9000⟩]

/-- Rows of families A to F. -/
def opcodeTableHigh : List OpcodeRow :=
  [⟨"ANNN", 0xF000, 0xA000⟩, ⟨"BNNN", 0xF000, 0xB000⟩, ⟨"CXNN", 0xF000, 0xC000⟩, ⟨"DXYN", 0xF000, 0xD000⟩] ++
  [⟨"EX9E", 0xF0FF, 0xE09E⟩, ⟨"EXA1", 0xF0FF, 0xE0A1⟩] ++
  [⟨"FX07", 0xF0FF, 0xF007⟩, ⟨"FX0A", 0xF0FF, 0xF00A⟩, ⟨"FX15", 0xF0FF, 0xF015⟩, ⟨"FX18", 0xF0FF, 0xF018⟩] ++
  [⟨"FX1E", 0xF0FF, 0xF01E⟩, ⟨"FX29", 0xF0FF, 0xF029⟩, ⟨"FX33", 0xF0FF, 0xF033⟩] ++
  [⟨"FX55", 0xF0FF, 0xF055⟩, ⟨"FX65", 0xF0FF, 0xF065⟩]

/-- spec/opcode_table.json: mnemonic, mask and pattern of all 34 rows, in the table's order. -/
def opcodeTable : List OpcodeRow := opcodeTableLow ++ opcodeTableAlu ++ opcodeTableHigh

/-- A word that matches one of the 34 patterns (R90); every other word is illegal. -/
def legalWord (w : Word) : Bool := opcodeTable.any fun r => r.holds w

end Sys2Proof
end

