-- ==== Sys2Proof/Decode.lean ====
section
/-!
DEFINITION. From bytes to instructions and back (spec/30_encoding.md; spec/20_memory.md R64).
The decoder follows the dispatch of R84–R89; the encoder follows the formats of R82 and the patterns of the opcode table.
-/

namespace Sys2Proof

/-- Why bytes give no instruction. -/
inductive Reject where
  /-- Fewer than two bytes: no whole instruction word (R80). -/
  | incomplete
  /-- The word matches none of the 34 patterns (R90). -/
  | illegal (op : Word)
deriving DecidableEq, Repr

/-- F = op[15:12] (R81). -/
def fieldF (op : Word) : Nat := (op.extractLsb' 12 4).toNat

/-- X = op[11:8], a register number (R81). -/
def fieldX (op : Word) : RegIndex := ⟨(op.extractLsb' 8 4).toNat, (op.extractLsb' 8 4).isLt⟩

/-- Y = op[7:4], a register number (R81). -/
def fieldY (op : Word) : RegIndex := ⟨(op.extractLsb' 4 4).toNat, (op.extractLsb' 4 4).isLt⟩

/-- N = op[3:0], a row count or a function code (R81). -/
def fieldN (op : Word) : RowCount := ⟨(op.extractLsb' 0 4).toNat, (op.extractLsb' 0 4).isLt⟩

/-- NN = op[7:0], a byte literal or a function code (R81). -/
def fieldNN (op : Word) : Byte := op.extractLsb' 0 8

/-- NNN = op[11:0], an address literal (R81). -/
def fieldNNN (op : Word) : Addr := op.extractLsb' 0 12

/-- Family 0: only the two whole words (R85). -/
def decodeFamily0 (op : Word) : Option Instr :=
  if op = 0x00E0 then some .cls else if op = 0x00EE then some .ret else none

/-- Family 8: the function nibble (R86). -/
def decodeFamily8 (op : Word) : Option Instr :=
  let x := fieldX op
  let y := fieldY op
  match (fieldN op).val with
  | 0x0 => some (.ldReg x y)
  | 0x1 => some (.orReg x y)
  | 0x2 => some (.andReg x y)
  | 0x3 => some (.xorReg x y)
  | 0x4 => some (.addReg x y)
  | 0x5 => some (.subReg x y)
  | 0x6 => some (.shrReg x y)
  | 0x7 => some (.subnReg x y)
  | 0xE => some (.shlReg x y)
  | _ => none

/-- Family E: the function byte (R87). -/
def decodeFamilyE (op : Word) : Option Instr :=
  let x := fieldX op
  match (fieldNN op).toNat with
  | 0x9E => some (.skp x)
  | 0xA1 => some (.sknp x)
  | _ => none

/-- Family F: the function byte (R88). -/
def decodeFamilyF (op : Word) : Option Instr :=
  let x := fieldX op
  match (fieldNN op).toNat with
  | 0x07 => some (.ldVxDt x)
  | 0x0A => some (.ldVxKey x)
  | 0x15 => some (.ldDtVx x)
  | 0x18 => some (.ldStVx x)
  | 0x1E => some (.addIVx x)
  | 0x29 => some (.ldFVx x)
  | 0x33 => some (.ldBVx x)
  | 0x55 => some (.storeRegs x)
  | 0x65 => some (.loadRegs x)
  | _ => none

/-- The instruction an opcode stands for, or `none` when it is illegal: a total function of the word alone (R84, R92). -/
def decodeWord (op : Word) : Option Instr :=
  let x := fieldX op
  let y := fieldY op
  match fieldF op with
  | 0x0 => decodeFamily0 op
  | 0x1 => some (.jp (fieldNNN op))
  | 0x2 => some (.call (fieldNNN op))
  | 0x3 => some (.seByte x (fieldNN op))
  | 0x4 => some (.sneByte x (fieldNN op))
  | 0x5 => if (fieldN op).val = 0 then some (.seReg x y) else none
  | 0x6 => some (.ldByte x (fieldNN op))
  | 0x7 => some (.addByte x (fieldNN op))
  | 0x8 => decodeFamily8 op
  | 0x9 => if (fieldN op).val = 0 then some (.sneReg x y) else none
  | 0xA => some (.ldI (fieldNNN op))
  | 0xB => some (.jpV0 (fieldNNN op))
  | 0xC => some (.rndByte x (fieldNN op))
  | 0xD => some (.drw x y (fieldN op))
  | 0xE => decodeFamilyE op
  | 0xF => decodeFamilyF op
  | _ => none

/-- Two bytes as the hardware stores a word: the byte at the lower address holds bits [15:8] (R64). -/
def wordOfBytes (hi lo : Byte) : Word := hi ++ lo

/-- The byte of a word that lies at the lower address: bits [15:8] (R64). -/
def highByte (op : Word) : Byte := op.extractLsb' 8 8

/-- The byte of a word that lies at the higher address: bits [7:0] (R64). -/
def lowByte (op : Word) : Byte := op.extractLsb' 0 8

/-- Decode a byte stream: the first instruction and the rest, or why there is none. -/
def decode : List Byte → Except Reject (Instr × List Byte)
  | hi :: lo :: rest =>
    match decodeWord (wordOfBytes hi lo) with
    | some i => .ok (i, rest)
    | none => .error (.illegal (wordOfBytes hi lo))
  | _ => .error .incomplete

/-- A number `0..15` as a four-bit field. -/
def nibble (n : Fin 16) : BitVec 4 := BitVec.ofNat 4 n.val

/-- Format A: family and NNN (R82). -/
def wordA (f : BitVec 4) (nnn : Addr) : Word := f ++ nnn

/-- Format XK (and XF, with a function byte): family, X, byte (R82). -/
def wordXK (f : BitVec 4) (x : RegIndex) (nn : Byte) : Word := (f ++ nibble x) ++ nn

/-- Formats XY and XYN: family, X, Y, nibble (R82). -/
def wordXYN (f : BitVec 4) (x y n : Fin 16) : Word := ((f ++ nibble x) ++ nibble y) ++ nibble n

/-- The word of an instruction (opcode_table.json's patterns, R82). -/
def encode : Instr → Word
  | .cls => 0x00E0
  | .ret => 0x00EE
  | .jp nnn => wordA 0x1 nnn
  | .call nnn => wordA 0x2 nnn
  | .seByte x nn => wordXK 0x3 x nn
  | .sneByte x nn => wordXK 0x4 x nn
  | .seReg x y => wordXYN 0x5 x y 0x0
  | .ldByte x nn => wordXK 0x6 x nn
  | .addByte x nn => wordXK 0x7 x nn
  | .ldReg x y => wordXYN 0x8 x y 0x0
  | .orReg x y => wordXYN 0x8 x y 0x1
  | .andReg x y => wordXYN 0x8 x y 0x2
  | .xorReg x y => wordXYN 0x8 x y 0x3
  | .addReg x y => wordXYN 0x8 x y 0x4
  | .subReg x y => wordXYN 0x8 x y 0x5
  | .shrReg x y => wordXYN 0x8 x y 0x6
  | .subnReg x y => wordXYN 0x8 x y 0x7
  | .shlReg x y => wordXYN 0x8 x y 0xE
  | .sneReg x y => wordXYN 0x9 x y 0x0
  | .ldI nnn => wordA 0xA nnn
  | .jpV0 nnn => wordA 0xB nnn
  | .rndByte x nn => wordXK 0xC x nn
  | .drw x y n => wordXYN 0xD x y n
  | .skp x => wordXK 0xE x 0x9E
  | .sknp x => wordXK 0xE x 0xA1
  | .ldVxDt x => wordXK 0xF x 0x07
  | .ldVxKey x => wordXK 0xF x 0x0A
  | .ldDtVx x => wordXK 0xF x 0x15
  | .ldStVx x => wordXK 0xF x 0x18
  | .addIVx x => wordXK 0xF x 0x1E
  | .ldFVx x => wordXK 0xF x 0x29
  | .ldBVx x => wordXK 0xF x 0x33
  | .storeRegs x => wordXK 0xF x 0x55
  | .loadRegs x => wordXK 0xF x 0x65

/-- The bytes of an instruction as memory holds them, lowest address first (R64, R80). -/
def encodeBytes (i : Instr) : List Byte := [highByte (encode i), lowByte (encode i)]

/-- The bytes, lowest address first, of the instruction whose table bits are `w`: one big-endian word (R64, R80), with the
bits at and above `nbits` zero. -/
def tableBytes (nbits w : Nat) : List Byte :=
  let op : Word := BitVec.ofNat 16 (w % 2 ^ nbits)
  [highByte op, lowByte op]

/-- What the decoder reads from the instruction whose bits, numbered as spec/opcode_table.json numbers them, are `w`. -/
def decodeTableWord (nbits w : Nat) : Option Instr :=
  match decode (tableBytes nbits w) with
  | .ok (i, _) => some i
  | .error _ => none

end Sys2Proof
end

