-- ==== Sys2Proof/Config.lean ====
section
/-!
DEFINITION. The parameters the spec leaves to the model's user (spec/00_scope.md R8) and the free value of the
model: the draws of the host's random source (spec/42_alu.md R153, spec/92_eei_decisions.md D13).
-/

namespace Sys2Proof

/-- P_STACK_POLICY (spec/41_control_flow.md R120, D8): what a push on 16 frames and a pop on none do. -/
inductive StackPolicy where
  /-- SP is taken modulo 16, and the 17th nested call overwrites `stack[0]` (the spec's default). -/
  | wrap
  /-- Overflow and underflow raise a fault. -/
  | fault
deriving DecidableEq, Repr

/-- P_VF_ALIAS (spec/42_alu.md R141, D9): the order of the two register writes of 8XY4–8XYE. -/
inductive VfAlias where
  /-- In the order the table writes them, each reading the registers as the one before left them (the default). -/
  | sequential
  /-- From operands read once; `V[X]` first and `VF` last. -/
  | latched
deriving DecidableEq, Repr

/-- P_FONT: 16 glyphs of 5 bytes (spec/70_reset_and_hazards.md R262, D14). -/
abbrev Font := Vector Byte 80

/-- The parameters of the machine, fixed for a run (R8). -/
structure Config where
  /-- P_STACK_POLICY. -/
  stackPolicy : StackPolicy
  /-- P_VF_ALIAS. -/
  vfAlias : VfAlias
  /-- P_FONT. -/
  font : Font
deriving DecidableEq, Repr

/-- Glyphs 0 to 7 of the default font (R262). -/
def fontLow : List Byte :=
  [0xF0, 0x90, 0x90, 0x90, 0xF0] ++ [0x20, 0x60, 0x20, 0x20, 0x70] ++
  [0xF0, 0x10, 0xF0, 0x80, 0xF0] ++ [0xF0, 0x10, 0xF0, 0x10, 0xF0] ++
  [0x90, 0x90, 0xF0, 0x10, 0x10] ++ [0xF0, 0x80, 0xF0, 0x10, 0xF0] ++
  [0xF0, 0x80, 0xF0, 0x90, 0xF0] ++ [0xF0, 0x10, 0x20, 0x40, 0x40]

/-- Glyphs 8 to F of the default font (R262). -/
def fontHigh : List Byte :=
  [0xF0, 0x90, 0xF0, 0x90, 0xF0] ++ [0xF0, 0x90, 0xF0, 0x10, 0xF0] ++
  [0xF0, 0x90, 0xF0, 0x90, 0x90] ++ [0xE0, 0x90, 0xE0, 0x90, 0xE0] ++
  [0xF0, 0x80, 0x80, 0x80, 0xF0] ++ [0xE0, 0x90, 0x90, 0x90, 0xE0] ++
  [0xF0, 0x80, 0xF0, 0x80, 0xF0] ++ [0xF0, 0x80, 0xF0, 0x80, 0x80]

/-- The default of P_FONT: the conventional CHIP-8 hexadecimal font, as R262 tabulates it. -/
def Font.default : Font := ⟨(fontLow ++ fontHigh).toArray, rfl⟩

/-- The defaults the spec's examples use (R8): `wrap`, `sequential`, the font of R262. -/
def Config.default : Config := ⟨.wrap, .sequential, Font.default⟩

/-- FREE VALUE: the n-th draw of the host's random source, for a CYCLE whose `rnd` argument the script does not name
(R107, R153, D13: "a free draw the model quantifies over, under no law"). It has no body: nothing can be proved of it. -/
opaque Config.freeRnd : Nat → Byte

end Sys2Proof
end

