-- ==== Sys2Proof/Machine/State.lean ====
section
/-!
DEFINITION. The state of the core (spec/10_state.md R20–R43), the host transactions (R48) and the outcomes of a step.
State is plain data. Its first fields are the spec's own state under the spec's names; the last four (`config`, `rnd`,
`draws`, `script`) are the model's own: the parameters, the input of the current CYCLE and the host.
-/

namespace Sys2Proof.Machine

/-- Memory (spec/20_memory.md R60): the bytes that differ from what their address reads as at reset, addresses strictly
rising (`Memory.wf` in Machine/Ops.lean says so). -/
abbrev Memory := List Host.Cell

/-- The framebuffer (R33): 32 rows of 64 one-bit cells. Cell `fb[x][y]` of the spec is `fb[y][x]` here (row first, as
READ_FB returns it, spec/60_exceptions.md R249). -/
abbrev Framebuffer := Vector (Vector Bool 64) 32

/-- A key-state vector (R34, R35). -/
abbrev Keys := Vector Bool 16

/-- The cause of a fault (spec/60_exceptions.md R230); `FaultCause.code` in Machine/Ops.lean gives its number. -/
inductive FaultCause where
  /-- Code 0, no fault recorded. -/
  | none
  /-- Code 1, raised by a fetch at `PC ≥ 0x0FFF`. -/
  | fetchRange
  /-- Code 2, raised by decoding a word that matches no pattern. -/
  | illegalInstruction
  /-- Code 3, raised by DXYN, FX33, FX55 and FX65 on a data address `≥ 0x1000`. -/
  | memRange
  /-- Code 4, raised by EX9E and EXA1 when `V[X] ≥ 16`. -/
  | keyRange
  /-- Code 5, raised by 2NNN under P_STACK_POLICY = `fault` when SP = 16. -/
  | stackOverflow
  /-- Code 6, raised by 00EE under P_STACK_POLICY = `fault` when SP = 0. -/
  | stackUnderflow
deriving DecidableEq, Repr

/-- The fault record (R37), the spec's status register. -/
structure FaultRecord where
  /-- `fault_cause`. -/
  cause : FaultCause
  /-- `fault_pc`. -/
  pc : Word
  /-- `fault_opcode`. -/
  opcode : Word
  /-- `fault_info`. -/
  info : Word
deriving DecidableEq, Repr

/-- The record that says that no fault is recorded: all fields 0 (R37, R43). -/
def FaultRecord.clear : FaultRecord := ⟨.none, 0, 0, 0⟩

/-- The seven host transactions of the block (R48). -/
inductive Transaction where
  /-- RESET (spec/70_reset_and_hazards.md R260). -/
  | reset
  /-- LOAD (R263). -/
  | load (image : List Byte)
  /-- SET_KEYS (spec/60_exceptions.md R248). -/
  | setKeys (k : Keys)
  /-- CYCLE (spec/40_cycle.md R109). -/
  | cycle (rnd : Byte)
  /-- TICK (R241). -/
  | tick
  /-- READ_FB (R249). -/
  | readFb
  /-- READ_FAULT (R250). -/
  | readFault
deriving DecidableEq, Repr

/-- What a transaction returns to the host (R48, R110). -/
inductive Result where
  /-- RESET, SET_KEYS and TICK return nothing. -/
  | none
  /-- LOAD: the image was copied. -/
  | accepted
  /-- LOAD: nothing was changed. -/
  | refused
  /-- CYCLE: an instruction completed. -/
  | ok
  /-- CYCLE: FX0A executed and did not complete. -/
  | blocked
  /-- CYCLE: the core was halted. -/
  | halted
  /-- CYCLE: this cycle raised a fault. -/
  | fault (cause : FaultCause)
  /-- READ_FB: the framebuffer. -/
  | framebuffer (fb : Framebuffer)
  /-- READ_FAULT: the fault record. -/
  | record (r : FaultRecord)
deriving DecidableEq, Repr

/-- Why a step stops the machine for good. The spec gives no such stop: a fault of the core is a NEXT state with the
fault record set (spec/60_exceptions.md R234, R235), so no constructor is needed and no step ends in `.fault`. -/
inductive Fault
deriving DecidableEq, Repr

/-- Why a step has no meaning in this model. -/
inductive Refusal where
  /-- Raised by an arm of `exec` whose instruction has no meaning yet; safe. No arm of this model raises it. -/
  | notModelled (mnemonic : String)
deriving DecidableEq, Repr

/-- The state of the machine (R20). -/
structure State where
  /-- `mem` (R60). -/
  mem : Memory
  /-- `V[0..15]` (R21). -/
  V : Vector Byte 16
  /-- `I` (R28). -/
  I : Word
  /-- `PC` (R25). -/
  PC : Word
  /-- `stack[0..15]` (R29). -/
  stack : Vector Word 16
  /-- `SP` (R30; spec/00_scope.md R7): `0..15` under `wrap`, `0..16` under `fault`. -/
  SP : Fin 17
  /-- `DT` (R31). -/
  DT : Byte
  /-- `ST` (R32). -/
  ST : Byte
  /-- `fb` (R33). -/
  fb : Framebuffer
  /-- `keys[0..15]` (R34). -/
  keys : Keys
  /-- `prev_keys[0..15]` (R35). -/
  prevKeys : Keys
  /-- `waiting` (R36). -/
  waiting : Bool
  /-- The fault record (R37). -/
  fault : FaultRecord
  /-- `load_closed` (R39). -/
  loadClosed : Bool
  /-- The model's own: the parameters of the machine, which nothing changes (spec/00_scope.md R8). -/
  config : Config
  /-- The model's own: the argument `rnd` of the current CYCLE (R46, R107). -/
  rnd : Byte
  /-- The model's own: how many free draws have been used (Config.freeRnd). -/
  draws : Nat
  /-- The model's own: the host transactions still to come, the next one first (R45). -/
  script : List Transaction
deriving DecidableEq, Repr

/-- The state RESET leaves under given parameters (R43), with no host transaction to come. Memory lists nothing: an
unlisted address reads as its reset contents. -/
def State.resetWith (c : Config) : State where
  mem := []
  V := Vector.replicate 16 0
  I := 0
  PC := 0x200
  stack := Vector.replicate 16 0
  SP := 0
  DT := 0
  ST := 0
  fb := Vector.replicate 32 (Vector.replicate 64 false)
  keys := Vector.replicate 16 false
  prevKeys := Vector.replicate 16 false
  waiting := false
  fault := FaultRecord.clear
  loadClosed := false
  config := c
  rnd := 0
  draws := 0
  script := []

/-- The machine right after reset, under the spec's default parameters (R43, R8). -/
def State.reset : State := State.resetWith Config.default

end Sys2Proof.Machine
end

