-- ==== Sys2Proof/Machine/Ops.lean ====
section
/-!
DEFINITION. The shared operations of the machine: memory (spec/20_memory.md), registers, the program counter
(spec/40_cycle.md R105), the stack controller (spec/41_control_flow.md R120), the framebuffer's cells
(spec/10_state.md R33), raising a fault and leaving the halted state (spec/60_exceptions.md R234–R236).
-/

namespace Sys2Proof.Machine

/-- What one step answers. -/
abbrev StepResult := Host.Outcome State Fault Refusal

/-! ### Memory -/

/-- What an address reads as when nothing has written it: its reset contents, the font at 0x000–0x04F and 0 elsewhere
(R43, R262). -/
def Memory.background (font : Font) (a : Nat) : Byte := if h : a < 80 then font[a] else 0

/-- The byte listed for an address, if there is one. -/
def Memory.lookup : Memory → Nat → Option Byte
  | [], _ => none
  | (k, v) :: m, a => if k = a then some v else Memory.lookup m a

/-- MemRead (R61) at an address of memory. -/
def Memory.read (font : Font) (m : Memory) (a : Nat) : Byte :=
  (Memory.lookup m a).getD (Memory.background font a)

/-- List `v` for the address `a`, keeping the addresses strictly rising. -/
def Memory.insert : Memory → Nat → Byte → Memory
  | [], a, v => [(a, v)]
  | (k, w) :: m, a, v =>
    if k < a then (k, w) :: Memory.insert m a v
    else if k = a then (a, v) :: m
    else (a, v) :: (k, w) :: m

/-- Take the address `a` out of the list. -/
def Memory.erase : Memory → Nat → Memory
  | [], _ => []
  | (k, w) :: m, a => if k = a then m else (k, w) :: Memory.erase m a

/-- MemWrite (R62) at an address of memory. Writing what the address reads as at reset takes its entry out. -/
def Memory.write (font : Font) (m : Memory) (a : Nat) (v : Byte) : Memory :=
  if v = Memory.background font a then Memory.erase m a else Memory.insert m a v

/-- Write bytes at rising addresses from `a`. -/
def Memory.writeAll (font : Font) : Memory → Nat → List Byte → Memory
  | m, _, [] => m
  | m, a, b :: bs => Memory.writeAll font (Memory.write font m a b) (a + 1) bs

/-- Every entry lies above `lo`, in rising order. -/
def Memory.risingFrom : Nat → Memory → Bool
  | _, [] => true
  | lo, (k, _) :: m => decide (lo ≤ k) && Memory.risingFrom (k + 1) m

/-- The canonical form: addresses strictly rising and inside the 4096 bytes of R60, and no entry equal to what its
address reads as at reset. -/
def Memory.wf (font : Font) (m : Memory) : Bool :=
  Memory.risingFrom 0 m && m.all fun c => decide (c.1 < 0x1000 ∧ c.2 ≠ Memory.background font c.1)

/-- The byte at an address (R61). -/
def State.readByte (s : State) (a : Nat) : Byte := Memory.read s.config.font s.mem a

/-- Store bytes at rising addresses from `a` (R62). -/
def State.writeBytes (a : Nat) (bs : List Byte) (s : State) : State :=
  { s with mem := Memory.writeAll s.config.font s.mem a bs }

/-! ### Registers and the program counter -/

/-- `V[x]` (R11). -/
def State.getV (s : State) (x : RegIndex) : Byte := s.V[x.val]

/-- `V[x] <- b` (R11). -/
def State.setV (x : RegIndex) (b : Byte) (s : State) : State := { s with V := s.V.set x.val b }

/-- `next`: `PC <- (PC + 2) mod 2^16` (R105). -/
def State.advance (s : State) : State := { s with PC := s.PC + 2 }

/-- `skip`: `PC <- (PC + 4) mod 2^16` (R105). -/
def State.skip (s : State) : State := { s with PC := s.PC + 4 }

/-- The skip family: `skip` when the condition holds, else `next`. -/
def State.skipIf (c : Bool) (s : State) : State := if c then s.skip else s.advance

/-! ### The stack controller (R120) -/

/-- The stack entry a pointer value names: SP itself for `0..15`. (SP = 16 under `fault` never gets here.) -/
def stackIndex (sp : Nat) : Fin 16 := ⟨sp % 16, Nat.mod_lt _ (by decide)⟩

/-- Push raises STACK_OVERFLOW: only under `fault`, with 16 frames on the stack. -/
def State.pushFaults (s : State) : Bool :=
  decide (s.config.stackPolicy = .fault) && decide (s.SP.val = 16)

/-- Pop raises STACK_UNDERFLOW: only under `fault`, with no frame on the stack. -/
def State.popFaults (s : State) : Bool :=
  decide (s.config.stackPolicy = .fault) && decide (s.SP.val = 0)

/-- SP after a push. -/
def State.spAfterPush (s : State) : Fin 17 :=
  match s.config.stackPolicy with
  | .wrap => Fin.ofNat 17 ((s.SP.val + 1) % 16)
  | .fault => Fin.ofNat 17 (s.SP.val + 1)

/-- SP after a pop. -/
def State.spAfterPop (s : State) : Fin 17 :=
  match s.config.stackPolicy with
  | .wrap => Fin.ofNat 17 ((s.SP.val + 15) % 16)
  | .fault => Fin.ofNat 17 (s.SP.val - 1)

/-- `Push(v)` where it does not fault: `stack[SP] <- v`, then SP moves up. -/
def State.push (v : Word) (s : State) : State :=
  { s with stack := s.stack.set (stackIndex s.SP.val).val v, SP := s.spAfterPush }

/-- The value `Pop()` returns where it does not fault: the entry SP names after it has moved down. -/
def State.popValue (s : State) : Word := s.stack[(stackIndex s.spAfterPop.val).val]

/-- The state `Pop()` leaves where it does not fault: SP moved down, every entry kept. -/
def State.pop (s : State) : State := { s with SP := s.spAfterPop }

/-! ### Framebuffer cells (R33) -/

/-- `fb[x][y]`: column x, row y. -/
def Framebuffer.get (fb : Framebuffer) (x : Fin 64) (y : Fin 32) : Bool := fb[y.val][x.val]

/-- `fb[x][y] <- fb[x][y] ⊕ 1`. -/
def Framebuffer.toggle (fb : Framebuffer) (x : Fin 64) (y : Fin 32) : Framebuffer :=
  fb.set y.val (fb[y.val].set x.val (!fb[y.val][x.val]))

/-- Every cell 0. -/
def Framebuffer.blank : Framebuffer := Vector.replicate 32 (Vector.replicate 64 false)

/-! ### Faults (R230–R237) -/

/-- The number of a cause (R230): the three bits of `fault_cause`. -/
def FaultCause.code : FaultCause → BitVec 3
  | .none => 0
  | .fetchRange => 1
  | .illegalInstruction => 2
  | .memRange => 3
  | .keyRange => 4
  | .stackOverflow => 5
  | .stackUnderflow => 6

/-- Halted: `fault_cause ≠ 0` (R38). -/
def State.halted (s : State) : Bool := decide (s.fault.cause ≠ .none)

/-- TAKING A FAULT (R232, R234, R235): the record gets the cause, the PC of the faulting cycle, the fetched word and the
cause's own value; nothing else changes, and control goes nowhere. -/
def State.raiseFault (cause : FaultCause) (info opcode : Word) (s : State) : State :=
  { s with fault := ⟨cause, s.PC, opcode, info⟩ }

/-- A fault raised by the execute step of the instruction `i`: the fetched word is `i`'s own. -/
def raise (i : Instr) (cause : FaultCause) (info : Word) (s : State) : StepResult :=
  .next (s.raiseFault cause info (encode i))

/-- LEAVING THE HALTED STATE. No instruction returns from a fault (R236); RESET, the only way out, sets every item of
state to its reset value whatever it was before (R260). The parameters and the host's own data are no state of the core
and stay. -/
def State.afterReset (s : State) : State :=
  { State.resetWith s.config with rnd := s.rnd, draws := s.draws, script := s.script }

end Sys2Proof.Machine
end

