-- ==== Sys2Proof/Machine/Operands.lean ====
section
/-!
DEFINITION. The operand forms of the instruction set: immediates that enter a 16-bit register (spec/30_encoding.md R83),
data addresses `I + k` and their range check (spec/20_memory.md R63, spec/43_index_memory.md R176), register lists,
decimal digits, key numbers and key edges (spec/45_input_timer_ops.md), and the cells of a sprite
(spec/44_display.md R191).
-/

namespace Sys2Proof.Machine

/-- `zext_16(NNN)` (R83). -/
def zextAddr (nnn : Addr) : Word := nnn.setWidth 16

/-- `zext_16(V[X])` (R10). -/
def zextByte (b : Byte) : Word := b.setWidth 16

/-- The exact address `I + k`: not reduced modulo anything (R63). -/
def State.dataAddr (s : State) (k : Nat) : Nat := s.I.toNat + k

/-- Does one of the `n` bytes at `I, I+1, …` lie outside memory (R63)? -/
def State.outOfRange (s : State) (n : Nat) : Bool := decide (0 < n) && decide (0xFFF < s.dataAddr (n - 1))

/-- The lowest out-of-range address of such an access, `max(I, 0x1000)` (R63, R230). -/
def State.lowestOutOfRange (s : State) : Word := if s.I.toNat < 0x1000 then 0x1000 else s.I

/-- `V[0], …, V[X]`, the bytes FX55 stores (R174). -/
def State.regsUpTo (s : State) (x : RegIndex) : List Byte := s.V.toList.take (x.val + 1)

/-- The registers after FX65: `V[i] = mem[I + i]` for `i = 0..X`, the others as before (R175). -/
def State.loadedRegs (s : State) (x : RegIndex) : Vector Byte 16 :=
  Vector.ofFn fun i => if i.val ≤ x.val then s.readByte (s.dataAddr i.val) else s.getV i

/-- `(I + X + 1) mod 2^16`, the post-increment of FX55 and FX65 (R174, R175). -/
def State.indexPast (s : State) (x : RegIndex) : Word := s.I + BitVec.ofNat 16 (x.val + 1)

/-- Hundreds, tens and ones of a byte (R173). -/
def bcdDigits (b : Byte) : List Byte :=
  [BitVec.ofNat 8 (b.toNat / 100), BitVec.ofNat 8 (b.toNat / 10 % 10), BitVec.ofNat 8 (b.toNat % 10)]

/-- The key a byte names, if it is one of `0..15` (R210). -/
def keyIndex? (b : Byte) : Option KeyIndex := if h : b.toNat < 16 then some ⟨b.toNat, h⟩ else none

/-- The lowest key that is down now and was up in the snapshot: `min E` of R213, if E is not empty. -/
def firstNewPress (prev now : Keys) : Option KeyIndex :=
  (List.finRange 16).find? fun k => !prev[k.val] && now[k.val]

/-- The N sprite bytes at `I, …, I + N − 1` (R191). -/
def State.spriteBytes (s : State) (n : RowCount) : List Byte :=
  (List.range n.val).map fun r => s.readByte (s.dataAddr r)

/-- The cells under the set bits of one sprite row, in the order of R191: column c is bit 7 − c, the position wraps. -/
def rowCells (x0 y0 : Byte) (r : Nat) (b : Byte) : List (Fin 64 × Fin 32) :=
  (List.range 8).filterMap fun c =>
    if b.getLsbD (7 - c) then some (Fin.ofNat 64 (x0.toNat + c), Fin.ofNat 32 (y0.toNat + r)) else none

/-- The cells under the set bits of a sprite at the origin `(x0, y0)`, row by row from row `r` on (R191). -/
def spriteCells (x0 y0 : Byte) : Nat → List Byte → List (Fin 64 × Fin 32)
  | _, [] => []
  | r, b :: bs => rowCells x0 y0 r b ++ spriteCells x0 y0 (r + 1) bs

/-- XOR each cell of the list in turn, and say whether one of them was set when its turn came (R191). -/
def drawCells : List (Fin 64 × Fin 32) → Framebuffer → Framebuffer × Bool
  | [], fb => (fb, false)
  | (x, y) :: cs, fb =>
    let (fb', hit) := drawCells cs (fb.toggle x y)
    (fb', fb.get x y || hit)

end Sys2Proof.Machine
end

