-- ==== Sys2Proof/Machine/Flags.lean ====
section
/-!
DEFINITION. Every flag value VF can be given (spec/10_state.md R24) and the order of the two register writes of
8XY4–8XYE, the parameter P_VF_ALIAS (spec/42_alu.md R141).
-/

namespace Sys2Proof.Machine

/-- `bool(c)` (spec/00_scope.md R10). -/
def flag (c : Bool) : Byte := if c then 1 else 0

/-- 8XY4: 1 if the wrapped sum is less than the second operand, else 0 (R148). -/
def carryFlag (sum b : Byte) : Byte := flag (decide (sum < b))

/-- 8XY5 and 8XY7: 0 if the subtrahend is greater (a borrow), else 1 (R149, R151). -/
def notBorrowFlag (minuend subtrahend : Byte) : Byte := flag (!decide (subtrahend > minuend))

/-- 8XY6: the bit shifted out, bit 0 (R150). -/
def lowBit (a : Byte) : Byte := a &&& 0x01

/-- 8XYE: the bit shifted out, bit 7 (R152). -/
def topBit (a : Byte) : Byte := (a >>> 7) &&& 0x01

/-- 8XY4's two writes (R141, R148): the result goes to `V[X]` and then the flag to `VF`. The flag is computed from the
result and the second operand; `sequential` reads both back from the registers, `latched` has them from the start. -/
def resultThenFlag (x y : RegIndex) (res flg : Byte → Byte → Byte) (s : State) : State :=
  match s.config.vfAlias with
  | .sequential =>
    let s1 := s.setV x (res (s.getV x) (s.getV y))
    s1.setV VF (flg (s1.getV x) (s1.getV y))
  | .latched =>
    let a := s.getV x
    let b := s.getV y
    let r := res a b
    (s.setV x r).setV VF (flg r b)

/-- The two writes of 8XY5, 8XY6, 8XY7 and 8XYE (R141, R149–R152). `sequential` writes the flag to `VF` and then computes
the result from the registers as they now are; `latched` computes both first, and writes `V[X]` and then `VF`. -/
def flagThenResult (x y : RegIndex) (flg res : Byte → Byte → Byte) (s : State) : State :=
  match s.config.vfAlias with
  | .sequential =>
    let s1 := s.setV VF (flg (s.getV x) (s.getV y))
    s1.setV x (res (s1.getV x) (s1.getV y))
  | .latched =>
    let a := s.getV x
    let b := s.getV y
    (s.setV x (res a b)).setV VF (flg a b)

end Sys2Proof.Machine
end

