-- ==== Sys2Proof/Machine/Alu.lean ====
section
/-!
DEFINITION. Loads, arithmetic, logic and the random byte (spec/42_alu.md): 6XNN, 7XNN, 8XY0–8XY7, 8XYE, CXNN.
Unsigned, modulo 256 (R140); no instruction of the family faults (spec/60_exceptions.md R231).
-/

namespace Sys2Proof.Machine

/-- 6XNN (R142): `V[X] <- NN`. -/
def execLdByte (x : RegIndex) (nn : Byte) (s : State) : StepResult := .next (s.setV x nn).advance

/-- 7XNN (R143): `V[X] <- (V[X] + NN) mod 256`, no flag. -/
def execAddByte (x : RegIndex) (nn : Byte) (s : State) : StepResult := .next (s.setV x (s.getV x + nn)).advance

/-- 8XY0 (R144): `V[X] <- V[Y]`. -/
def execLdReg (x y : RegIndex) (s : State) : StepResult := .next (s.setV x (s.getV y)).advance

/-- 8XY1 (R145): `V[X] <- V[X] | V[Y]`. -/
def execOrReg (x y : RegIndex) (s : State) : StepResult := .next (s.setV x (s.getV x ||| s.getV y)).advance

/-- 8XY2 (R146): `V[X] <- V[X] & V[Y]`. -/
def execAndReg (x y : RegIndex) (s : State) : StepResult := .next (s.setV x (s.getV x &&& s.getV y)).advance

/-- 8XY3 (R147): `V[X] <- V[X] ⊕ V[Y]`. -/
def execXorReg (x y : RegIndex) (s : State) : StepResult := .next (s.setV x (s.getV x ^^^ s.getV y)).advance

/-- 8XY4 (R148): the wrapped sum, and VF = 1 if it is less than the second operand. -/
def execAddReg (x y : RegIndex) (s : State) : StepResult :=
  .next (resultThenFlag x y (fun a b => a + b) carryFlag s).advance

/-- 8XY5 (R149): VF = NOT borrow of `V[X] − V[Y]`, and the wrapped difference. -/
def execSubReg (x y : RegIndex) (s : State) : StepResult :=
  .next (flagThenResult x y (fun a b => notBorrowFlag a b) (fun a b => a - b) s).advance

/-- 8XY6 (R150): VF = bit 0, and `V[X] >> 1`; the Y field names nothing. -/
def execShrReg (x _y : RegIndex) (s : State) : StepResult :=
  .next (flagThenResult x x (fun a _ => lowBit a) (fun a _ => a >>> 1) s).advance

/-- 8XY7 (R151): VF = NOT borrow of `V[Y] − V[X]`, and the wrapped difference. -/
def execSubnReg (x y : RegIndex) (s : State) : StepResult :=
  .next (flagThenResult x y (fun a b => notBorrowFlag b a) (fun a b => b - a) s).advance

/-- 8XYE (R152): VF = bit 7, and `V[X] << 1` modulo 256; the Y field names nothing. -/
def execShlReg (x _y : RegIndex) (s : State) : StepResult :=
  .next (flagThenResult x x (fun a _ => topBit a) (fun a _ => a <<< 1) s).advance

/-- CXNN (R153): `V[X] <- rnd & NN`, where `rnd` is this CYCLE's argument. -/
def execRndByte (x : RegIndex) (nn : Byte) (s : State) : StepResult := .next (s.setV x (s.rnd &&& nn)).advance

end Sys2Proof.Machine
end

