-- ==== Sys2Proof/Machine/ControlFlow.lean ====
section
/-!
DEFINITION. Jumps, calls and skips (spec/41_control_flow.md): 00EE, 1NNN, 2NNN, 3XNN, 4XNN, 5XY0, 9XY0, BNNN.
`PC` is the executing instruction's own address (spec/10_state.md R25).
-/

namespace Sys2Proof.Machine

/-- 00EE (R121): `PC <- Pop()`, then `next`. -/
def execRet (s : State) : StepResult :=
  if s.popFaults then raise .ret .stackUnderflow (BitVec.ofNat 16 s.SP.val) s
  else .next { s.pop with PC := s.popValue }.advance

/-- 1NNN (R122): `PC <- zext_16(NNN)`, no increment. -/
def execJp (nnn : Addr) (s : State) : StepResult := .next { s with PC := zextAddr nnn }

/-- 2NNN (R123): push this instruction's own address, then `PC <- zext_16(NNN)`. -/
def execCall (nnn : Addr) (s : State) : StepResult :=
  if s.pushFaults then raise (.call nnn) .stackOverflow (BitVec.ofNat 16 s.SP.val) s
  else .next { s.push s.PC with PC := zextAddr nnn }

/-- 3XNN (R124): skip if `V[X] = NN`. -/
def execSeByte (x : RegIndex) (nn : Byte) (s : State) : StepResult := .next (s.skipIf (decide (s.getV x = nn)))

/-- 4XNN (R125): skip if `V[X] ≠ NN`. -/
def execSneByte (x : RegIndex) (nn : Byte) (s : State) : StepResult := .next (s.skipIf (decide (s.getV x ≠ nn)))

/-- 5XY0 (R126): skip if `V[X] = V[Y]`. -/
def execSeReg (x y : RegIndex) (s : State) : StepResult := .next (s.skipIf (decide (s.getV x = s.getV y)))

/-- 9XY0 (R127): skip if `V[X] ≠ V[Y]`. -/
def execSneReg (x y : RegIndex) (s : State) : StepResult := .next (s.skipIf (decide (s.getV x ≠ s.getV y)))

/-- BNNN (R128): `PC <- NNN + V[0]`, no increment, not masked to 12 bits. -/
def execJpV0 (nnn : Addr) (s : State) : StepResult := .next { s with PC := zextAddr nnn + zextByte (s.getV 0) }

end Sys2Proof.Machine
end

