-- ==== Sys2Proof/Machine/Display.lean ====
section
/-!
DEFINITION. The framebuffer and the sprite-collision engine (spec/44_display.md): 00E0, DXYN.
-/

namespace Sys2Proof.Machine

/-- 00E0 (R190): every cell 0. -/
def execCls (s : State) : StepResult := .next { s with fb := Framebuffer.blank }.advance

/-- DXYN (R191): XOR the N sprite bytes at I onto the framebuffer at `(V[X], V[Y])`, and VF = 1 if a set cell was turned
off. The origin is read before VF is written; P_VF_ALIAS does not apply. -/
def execDrw (x y : RegIndex) (n : RowCount) (s : State) : StepResult :=
  if s.outOfRange n.val then raise (.drw x y n) .memRange s.lowestOutOfRange s
  else
    let drawn := drawCells (spriteCells (s.getV x) (s.getV y) 0 (s.spriteBytes n)) s.fb
    .next (State.setV VF (flag drawn.2) { s with fb := drawn.1 }).advance

end Sys2Proof.Machine
end

