-- ==== Sys2Proof/Machine/IndexMemory.lean ====
section
/-!
DEFINITION. The index register and memory transfer (spec/43_index_memory.md): ANNN, FX1E, FX29, FX33, FX55, FX65.
An access outside memory raises MEM_RANGE before anything is written (spec/20_memory.md R63).
-/

namespace Sys2Proof.Machine

/-- ANNN (R170): `I <- zext_16(NNN)`. -/
def execLdI (nnn : Addr) (s : State) : StepResult := .next { s with I := zextAddr nnn }.advance

/-- FX1E (R171): `I <- (I + V[X]) mod 2^16`, no flag. -/
def execAddIVx (x : RegIndex) (s : State) : StepResult := .next { s with I := s.I + zextByte (s.getV x) }.advance

/-- FX29 (R172): `I <- V[X] × 5`, the whole byte, not masked to a digit. -/
def execLdFVx (x : RegIndex) (s : State) : StepResult := .next { s with I := zextByte (s.getV x) * 5 }.advance

/-- FX33 (R173): the three decimal digits of `V[X]` at I, I + 1, I + 2. -/
def execLdBVx (x : RegIndex) (s : State) : StepResult :=
  if s.outOfRange 3 then raise (.ldBVx x) .memRange s.lowestOutOfRange s
  else .next (s.writeBytes (s.dataAddr 0) (bcdDigits (s.getV x))).advance

/-- FX55 (R174): `V[0..X]` to memory at I, then I moves past them. -/
def execStoreRegs (x : RegIndex) (s : State) : StepResult :=
  if s.outOfRange (x.val + 1) then raise (.storeRegs x) .memRange s.lowestOutOfRange s
  else .next { s.writeBytes (s.dataAddr 0) (s.regsUpTo x) with I := s.indexPast x }.advance

/-- FX65 (R175): `V[0..X]` from memory at I, then I moves past them. -/
def execLoadRegs (x : RegIndex) (s : State) : StepResult :=
  if s.outOfRange (x.val + 1) then raise (.loadRegs x) .memRange s.lowestOutOfRange s
  else .next { s with V := s.loadedRegs x, I := s.indexPast x }.advance

end Sys2Proof.Machine
end

