-- ==== Sys2Proof/Machine/InputTimer.lean ====
section
/-!
DEFINITION. Key input and the timer registers (spec/45_input_timer_ops.md): EX9E, EXA1, FX07, FX0A, FX15, FX18.
-/

namespace Sys2Proof.Machine

/-- EX9E (R210): skip if key `V[X]` is pressed; KEY_RANGE if `V[X] ≥ 16`. -/
def execSkp (x : RegIndex) (s : State) : StepResult :=
  match keyIndex? (s.getV x) with
  | some k => .next (s.skipIf s.keys[k.val])
  | none => raise (.skp x) .keyRange (zextByte (s.getV x)) s

/-- EXA1 (R211): skip if key `V[X]` is not pressed; KEY_RANGE if `V[X] ≥ 16`. -/
def execSknp (x : RegIndex) (s : State) : StepResult :=
  match keyIndex? (s.getV x) with
  | some k => .next (s.skipIf (!s.keys[k.val]))
  | none => raise (.sknp x) .keyRange (zextByte (s.getV x)) s

/-- FX07 (R212): `V[X] <- DT`. -/
def execLdVxDt (x : RegIndex) (s : State) : StepResult := .next (s.setV x s.DT).advance

/-- FX0A (R213), the wait for a key press. Idle: take a snapshot and begin to wait, PC unchanged. Waiting: the lowest newly
pressed key goes to `V[X]` and the wait ends; with no new press the snapshot is taken again, PC unchanged. -/
def execLdVxKey (x : RegIndex) (s : State) : StepResult :=
  if s.waiting then
    match firstNewPress s.prevKeys s.keys with
    | some k => .next { s.setV x (BitVec.ofNat 8 k.val) with waiting := false }.advance
    | none => .next { s with prevKeys := s.keys }
  else .next { s with prevKeys := s.keys, waiting := true }

/-- FX15 (R215): `DT <- V[X]`. -/
def execLdDtVx (x : RegIndex) (s : State) : StepResult := .next { s with DT := s.getV x }.advance

/-- FX18 (R216): `ST <- V[X]`. -/
def execLdStVx (x : RegIndex) (s : State) : StepResult := .next { s with ST := s.getV x }.advance

end Sys2Proof.Machine
end

