-- ==== Sys2Proof/Machine/Cycle.lean ====
section
/-!
DEFINITION. The CYCLE transaction: fetch, decode, dispatch (spec/40_cycle.md R100–R111), and what it returns (R110).
-/

namespace Sys2Proof.Machine

/-- Fetch (R101, spec/20_memory.md R64): the big-endian word at PC, or nothing when not both bytes lie in memory. An odd PC
is fetched like an even one. -/
def State.fetch (s : State) : Option Word :=
  if s.PC.toNat + 1 > 0xFFF then none
  else some (wordOfBytes (s.readByte s.PC.toNat) (s.readByte (s.PC.toNat + 1)))

/-- The instruction the fetch and the decode give, if they give one (R101, R102). -/
def State.fetchedInstr (s : State) : Option Instr := s.fetch.bind decodeWord

/-- What a CYCLE does to the state before it fetches: the load gate closes (R111), and the argument `rnd` is there to be
read (R107). -/
def State.beginCycle (rnd : Byte) (s : State) : State := { s with loadClosed := true, rnd := rnd }

/-- CYCLE(rnd) in full (R109). Halted: no change (R100). A fetch outside memory or an illegal word raises its fault; every
write but the load gate's is dropped with it (R106). -/
def cycle (rnd : Byte) (s : State) : StepResult :=
  if s.halted then .next s
  else
    let s1 := s.beginCycle rnd
    match s1.fetch with
    | none => .next (s1.raiseFault .fetchRange s1.PC 0)
    | some op =>
      match decodeWord op with
      | none => .next (s1.raiseFault .illegalInstruction op op)
      | some i => exec i s1

/-- Did the cycle from `s` to `t` execute FX0A and leave PC where it was (R109, R110)? -/
def blockedBetween (s t : State) : Bool :=
  match s.fetchedInstr with
  | some (.ldVxKey _) => decide (t.PC = s.PC)
  | _ => false

/-- What a CYCLE that took `s` to `t` returns (R110). -/
def cycleStatus (s t : State) : Result :=
  if s.halted then .halted
  else if t.halted then .fault t.fault.cause
  else if blockedBetween s t then .blocked
  else .ok

end Sys2Proof.Machine
end

