-- ==== Sys2Proof/Machine/Transactions.lean ====
section
/-!
DEFINITION. The seven host transactions (spec/10_state.md R48): CYCLE is in Machine/Cycle.lean, the other six are here,
each with the result it returns.
-/

namespace Sys2Proof.Machine

/-- LOAD refuses: halted, a run already begun or loaded, or an image over 3584 bytes (spec/70_reset_and_hazards.md R263). -/
def State.loadRefused (image : List Byte) (s : State) : Bool :=
  s.halted || s.loadClosed || decide (image.length > 3584)

/-- LOAD(image) (R263): the bytes go to 0x200 and on, and the load gate closes; or nothing changes. -/
def State.load (image : List Byte) (s : State) : State :=
  if s.loadRefused image then s else { s.writeBytes 0x200 image with loadClosed := true }

/-- SET_KEYS(k) (spec/60_exceptions.md R248): the whole vector at once; no change while halted (R237). -/
def State.setKeys (k : Keys) (s : State) : State := if s.halted then s else { s with keys := k }

/-- A timer counts down and stops at 0 (R241). -/
def countDown (t : Byte) : Byte := if t = 0 then 0 else t - 1

/-- TICK() (R241): both timers, independently; no change while halted (R237). -/
def State.tick (s : State) : State :=
  if s.halted then s else { s with DT := countDown s.DT, ST := countDown s.ST }

/-- A transaction on a state: the state it leaves and what it returns (R48). -/
def transact (t : Transaction) (s : State) : Host.Outcome (State × Result) Fault Refusal :=
  match t with
  | .reset => .next (s.afterReset, .none)
  | .load image => .next (s.load image, if s.loadRefused image then .refused else .accepted)
  | .setKeys k => .next (s.setKeys k, .none)
  | .cycle rnd =>
    match cycle rnd s with
    | .next u => .next (u, cycleStatus s u)
    | .fault f => .fault f
    | .refused r => .refused r
  | .tick => .next (s.tick, .none)
  | .readFb => .next (s, .framebuffer s.fb)
  | .readFault => .next (s, .record s.fault)

/-- The state part of a transaction's outcome. -/
def stateOf : Host.Outcome (State × Result) Fault Refusal → StepResult
  | .next (u, _) => .next u
  | .fault f => .fault f
  | .refused r => .refused r

/-- The machine with no named transaction to come: the host issues a CYCLE whose argument is a free draw (R107, R153). A
halted core does nothing (R100). -/
def freeCycle (s : State) : StepResult :=
  if s.halted then .next s else cycle (Config.freeRnd s.draws) { s with draws := s.draws + 1 }

/-- The next transaction of a run: the script's first, or a CYCLE with a free draw when the script is empty. -/
def nextTransaction (s : State) : StepResult :=
  match s.script with
  | [] => freeCycle s
  | t :: rest => stateOf (transact t { s with script := rest })

/-- The state whose very next CYCLE fetches the word `w`: its two bytes lie at PC (0x200 when no word fits at PC), no fault
is recorded and no other transaction comes first. -/
def State.withWordAtPc (nbits w : Nat) (s : State) : State :=
  let pc : Word := if s.PC.toNat + 1 > 0xFFF then 0x200 else s.PC
  { s.writeBytes pc.toNat (tableBytes nbits w) with PC := pc, fault := FaultRecord.clear, script := [] }

end Sys2Proof.Machine
end

