-- ==== Sys2Proof/Machine/Step.lean ====
section
/-!
DEFINITION. One step of the machine: one host transaction (spec/10_state.md R44, R45, R48).
-/

namespace Sys2Proof.Machine

/-- One step: the next transaction of the script, or a CYCLE with a free draw when the script is empty. -/
def step (s : State) : Host.Outcome State Fault Refusal := nextTransaction s

/-- The state whose next step fetches and runs the instruction whose table bits are `w`. -/
def State.withFetchWord (s : State) (nbits w : Nat) : State := s.withWordAtPc nbits w

end Sys2Proof.Machine
end

