-- ==== Sys2Proof/Safety.lean ====
section
/-!
DEFINITION. The terms claims are stated in: the parts of a state and what leaves them alone, the tables of the spec about
all instructions at once (who writes which register, the PC afterwards), and the invariants of a run.
-/

namespace Sys2Proof.Machine

/-! ### Frames -/

/-- The parts of a state: the spec's own (spec/10_state.md R20), and the model's own last. -/
inductive Part where
  | mem | V | I | PC | stack | SP | DT | ST | fb | keys | prevKeys | waiting | fault | loadClosed
  | config | rnd | draws | script
deriving DecidableEq, Repr

/-- The part is the same in both states. Memory is compared byte by byte, through the model's read of one byte. -/
def Unchanged (p : Part) (s t : State) : Prop :=
  match p with
  | .mem => ∀ a, t.readByte a = s.readByte a
  | .V => ∀ r, t.getV r = s.getV r
  | .I => t.I = s.I
  | .PC => t.PC = s.PC
  | .stack => ∀ k : Fin 16, t.stack[k.val] = s.stack[k.val]
  | .SP => t.SP = s.SP
  | .DT => t.DT = s.DT
  | .ST => t.ST = s.ST
  | .fb => ∀ x y, t.fb.get x y = s.fb.get x y
  | .keys => t.keys = s.keys
  | .prevKeys => t.prevKeys = s.prevKeys
  | .waiting => t.waiting = s.waiting
  | .fault => t.fault = s.fault
  | .loadClosed => t.loadClosed = s.loadClosed
  | .config => t.config = s.config
  | .rnd => t.rnd = s.rnd
  | .draws => t.draws = s.draws
  | .script => t.script = s.script

/-- Every part but those listed is the same in both states. -/
def UnchangedExcept (ps : List Part) (s t : State) : Prop := ∀ p, p ∉ ps → Unchanged p s t

/-- Every general register but those for which `P` holds is the same in both states. -/
def RegsKeptExcept (P : RegIndex → Prop) (s t : State) : Prop := ∀ r, ¬ P r → t.getV r = s.getV r

/-- Every byte of memory but those at `a, …, a + n − 1` reads as before. -/
def BytesKeptOutside (a n : Nat) (s t : State) : Prop := ∀ b, b < a ∨ a + n ≤ b → t.readByte b = s.readByte b

/-! ### The spec's tables about all instructions -/

/-- May the instruction write the general register `r`? The destinations of spec/10_state.md R23 and the flag writers of
R24. -/
def mayWrite (i : Instr) (r : RegIndex) : Bool :=
  match i with
  | .ldByte x _ | .addByte x _ | .rndByte x _ => decide (r = x)
  | .ldReg x _ | .orReg x _ | .andReg x _ | .xorReg x _ => decide (r = x)
  | .addReg x _ | .subReg x _ | .shrReg x _ | .subnReg x _ | .shlReg x _ => decide (r = x) || decide (r = VF)
  | .drw _ _ _ => decide (r = VF)
  | .ldVxDt x | .ldVxKey x => decide (r = x)
  | .loadRegs x => decide (r ≤ x)
  | .cls | .ret | .jp _ | .call _ | .seByte _ _ | .sneByte _ _ | .seReg _ _ | .sneReg _ _ => false
  | .ldI _ | .jpV0 _ | .skp _ | .sknp _ | .ldDtVx _ | .ldStVx _ | .addIVx _ | .ldFVx _ | .ldBVx _ | .storeRegs _ => false

/-- The PC after an instruction that raises no fault, as spec/40_cycle.md R112 tabulates it. -/
def pcAfter (i : Instr) (s : State) : Word :=
  let skipsWhen (c : Prop) [Decidable c] : Word := if c then s.PC + 4 else s.PC + 2
  match i with
  | .ret => s.popValue + 2
  | .jp nnn | .call nnn => nnn.setWidth 16
  | .jpV0 nnn => nnn.setWidth 16 + (s.getV 0).setWidth 16
  | .seByte x nn => skipsWhen (s.getV x = nn)
  | .sneByte x nn => skipsWhen (s.getV x ≠ nn)
  | .seReg x y => skipsWhen (s.getV x = s.getV y)
  | .sneReg x y => skipsWhen (s.getV x ≠ s.getV y)
  | .skp x => skipsWhen (s.keys[(s.getV x).toNat]? = some true)
  | .sknp x => skipsWhen (s.keys[(s.getV x).toNat]? = some false)
  | .ldVxKey _ =>
    if s.waiting ∧ ∃ k : Fin 16, s.prevKeys[k.val] = false ∧ s.keys[k.val] = true then s.PC + 2 else s.PC
  | .cls | .ldByte _ _ | .addByte _ _ | .ldReg _ _ | .orReg _ _ | .andReg _ _ | .xorReg _ _ | .addReg _ _ => s.PC + 2
  | .subReg _ _ | .shrReg _ _ | .subnReg _ _ | .shlReg _ _ | .ldI _ | .rndByte _ _ | .drw _ _ _ => s.PC + 2
  | .ldVxDt _ | .ldDtVx _ | .ldStVx _ | .addIVx _ | .ldFVx _ | .ldBVx _ | .storeRegs _ | .loadRegs _ => s.PC + 2

/-- The parts of the state an instruction may change when it raises no fault: its row of spec/20_memory.md R67 (memory),
of spec/10_state.md R23, R24, R28–R36 (registers, stack, timers, framebuffer, key wait) and of R112 (PC). -/
def mayChange (i : Instr) : List Part :=
  match i with
  | .cls => [.PC, .fb]
  | .ret => [.PC, .SP]
  | .call _ => [.PC, .stack, .SP]
  | .jp _ | .jpV0 _ | .seByte _ _ | .sneByte _ _ | .seReg _ _ | .sneReg _ _ | .skp _ | .sknp _ => [.PC]
  | .ldByte _ _ | .addByte _ _ | .ldReg _ _ | .orReg _ _ | .andReg _ _ | .xorReg _ _ | .addReg _ _ => [.PC, .V]
  | .subReg _ _ | .shrReg _ _ | .subnReg _ _ | .shlReg _ _ | .rndByte _ _ | .ldVxDt _ => [.PC, .V]
  | .ldI _ | .addIVx _ | .ldFVx _ => [.PC, .I]
  | .drw _ _ _ => [.PC, .V, .fb]
  | .ldVxKey _ => [.PC, .V, .waiting, .prevKeys]
  | .ldDtVx _ => [.PC, .DT]
  | .ldStVx _ => [.PC, .ST]
  | .ldBVx _ => [.PC, .mem]
  | .storeRegs _ => [.PC, .mem, .I]
  | .loadRegs _ => [.PC, .V, .I]

/-- How many bytes of memory, from I on, an instruction accesses as data (R67). -/
def dataBytes (i : Instr) : Nat :=
  match i with
  | .drw _ _ n => n.val
  | .ldBVx _ => 3
  | .storeRegs x | .loadRegs x => x.val + 1
  | .cls | .ret | .jp _ | .call _ | .seByte _ _ | .sneByte _ _ | .seReg _ _ | .ldByte _ _ | .addByte _ _ => 0
  | .ldReg _ _ | .orReg _ _ | .andReg _ _ | .xorReg _ _ | .addReg _ _ | .subReg _ _ | .shrReg _ _ | .subnReg _ _ => 0
  | .shlReg _ _ | .sneReg _ _ | .ldI _ | .jpV0 _ | .rndByte _ _ | .skp _ | .sknp _ | .ldVxDt _ | .ldVxKey _ => 0
  | .ldDtVx _ | .ldStVx _ | .addIVx _ | .ldFVx _ => 0

/-- The cause and the `fault_info` of the fault the execute step of an instruction raises, if it raises one, as
spec/60_exceptions.md R230 tabulates them (and R231: every other instruction raises none). -/
def executeFault (i : Instr) (s : State) : Option (FaultCause × Word) :=
  if 0 < dataBytes i ∧ 0x1000 ≤ s.I.toNat + (dataBytes i - 1) then
    some (.memRange, BitVec.ofNat 16 (max s.I.toNat 0x1000))
  else
    match i with
    | .skp x | .sknp x =>
      if 16 ≤ (s.getV x).toNat then some (.keyRange, (s.getV x).setWidth 16) else none
    | .call _ => if s.config.stackPolicy = .fault ∧ s.SP.val = 16 then some (.stackOverflow, 16) else none
    | .ret => if s.config.stackPolicy = .fault ∧ s.SP.val = 0 then some (.stackUnderflow, 0) else none
    | .cls | .jp _ | .seByte _ _ | .sneByte _ _ | .seReg _ _ | .ldByte _ _ | .addByte _ _ | .ldReg _ _ => none
    | .orReg _ _ | .andReg _ _ | .xorReg _ _ | .addReg _ _ | .subReg _ _ | .shrReg _ _ | .subnReg _ _ => none
    | .shlReg _ _ | .sneReg _ _ | .ldI _ | .jpV0 _ | .rndByte _ _ | .drw _ _ _ | .ldVxDt _ | .ldVxKey _ => none
    | .ldDtVx _ | .ldStVx _ | .addIVx _ | .ldFVx _ | .ldBVx _ | .storeRegs _ | .loadRegs _ => none

/-- The fault record a CYCLE of a running core leaves, as R230 and R232 tabulate it, in the order of R233: the fetch's, then
the decoder's, then the execute step's, and else the record as it was. -/
def recordAfterCycle (s : State) : FaultRecord :=
  if 0x0FFF ≤ s.PC.toNat then ⟨.fetchRange, s.PC, 0, s.PC⟩
  else
    let op := wordOfBytes (s.readByte s.PC.toNat) (s.readByte (s.PC.toNat + 1))
    match decodeWord op with
    | none => ⟨.illegalInstruction, s.PC, op, op⟩
    | some i =>
      match executeFault i s with
      | some (cause, info) => ⟨cause, s.PC, op, info⟩
      | none => s.fault

/-- A sprite of N rows at I, drawn at the origin `(x0, y0)`, has a set bit on the cell `(x, y)` (spec/44_display.md R191):
bit `7 − c` of its row r, with the position wrapped. -/
def SpriteCovers (s : State) (x0 y0 : Byte) (n : RowCount) (x : Fin 64) (y : Fin 32) : Prop :=
  ∃ r c, r < n.val ∧ c < 8 ∧ (s.readByte (s.I.toNat + r)).getLsbD (7 - c) = true ∧
    x.val = (x0.toNat + c) % 64 ∧ y.val = (y0.toNat + r) % 32

/-- The opcode with the four nibbles F, X, Y, N (spec/30_encoding.md R81). -/
def opcodeOf (f x y n : Nat) : Word := BitVec.ofNat 16 (0x1000 * f + 0x100 * x + 0x10 * y + n)

/-- Key `k` is newly pressed: up in the snapshot and down now (spec/45_input_timer_ops.md R213). -/
def NewlyPressed (s : State) (k : KeyIndex) : Prop := s.prevKeys[k.val] = false ∧ s.keys[k.val] = true

/-! ### Runs -/

/-- A program is parked at `a` (spec/70_reset_and_hazards.md R265): PC is `a`, and the word there jumps to `a`. -/
def Parked (a : Addr) (s : State) : Prop :=
  a.toNat ≤ 0xFFE ∧ s.PC = a.setWidth 16 ∧
    wordOfBytes (s.readByte a.toNat) (s.readByte (a.toNat + 1)) = 0x1000#16 ||| a.setWidth 16

/-- Memory is in its canonical form. -/
def MemoryCanonical (s : State) : Prop := Memory.wf s.config.font s.mem = true

/-- SP is in its range: `0..15` under `wrap`; `0..16` under `fault` (spec/00_scope.md R7). -/
def StackPointerInRange (s : State) : Prop := s.config.stackPolicy = .wrap → s.SP.val ≤ 15

/-- Every stack entry is the address of an instruction that was fetched, at most 0x0FFE (spec/41_control_flow.md R121), and
PC is at most 0x10FE, the furthest BNNN reaches (R128). -/
def AddressesBounded (s : State) : Prop :=
  s.PC.toNat ≤ 0x10FE ∧ ∀ k : Fin 16, s.stack[k.val].toNat ≤ 0x0FFE

/-- While FX0A waits, the word at PC is an FX0A (spec/45_input_timer_ops.md R214); the run has begun and no fault is
recorded. -/
def WaitingAtKeyWait (s : State) : Prop :=
  s.waiting = true → s.loadClosed = true ∧ s.halted = false ∧ ∃ x, s.fetchedInstr = some (.ldVxKey x)

/-- What the fields of a fault record say of each other, cause by cause (spec/60_exceptions.md R230, R232). -/
def FaultRecord.Consistent (r : FaultRecord) : Prop :=
  match r.cause with
  | .none => r = FaultRecord.clear
  | .fetchRange => 0x0FFF ≤ r.pc.toNat ∧ r.opcode = 0 ∧ r.info = r.pc
  | .illegalInstruction => r.pc.toNat ≤ 0x0FFE ∧ decodeWord r.opcode = none ∧ r.info = r.opcode
  | .memRange =>
    r.pc.toNat ≤ 0x0FFE ∧ 0x1000 ≤ r.info.toNat ∧
      ∃ x y n, decodeWord r.opcode = some (.drw x y n) ∨ decodeWord r.opcode = some (.ldBVx x) ∨
        decodeWord r.opcode = some (.storeRegs x) ∨ decodeWord r.opcode = some (.loadRegs x)
  | .keyRange =>
    r.pc.toNat ≤ 0x0FFE ∧ 16 ≤ r.info.toNat ∧ r.info.toNat ≤ 255 ∧
      ∃ x, decodeWord r.opcode = some (.skp x) ∨ decodeWord r.opcode = some (.sknp x)
  | .stackOverflow => r.pc.toNat ≤ 0x0FFE ∧ r.info = 16 ∧ ∃ nnn, decodeWord r.opcode = some (.call nnn)
  | .stackUnderflow => r.pc.toNat ≤ 0x0FFE ∧ r.info = 0 ∧ decodeWord r.opcode = some .ret

/-- The fault record is consistent; when it records a fault, the run has begun and PC still is the faulting cycle's
(R232, R234, R237). -/
def FaultRecordSound (s : State) : Prop :=
  s.fault.Consistent ∧ (s.halted = true → s.loadClosed = true ∧ s.fault.pc = s.PC)

end Sys2Proof.Machine
end

