-- ==== Sys2Proof/Certificates/Slice0/Obligations.lean ====
section
/-!
DEFINITION. The statements for the provers. Each says which rule of spec/ it formalises; a statement about an
instruction's result says that `exec` answers a next state, what that state holds and what it leaves alone.
-/

open Sys2Proof Sys2Proof.Machine

/-! ### Encoding -/

/-- Words written out from the patterns of spec/opcode_table.json, one or more of each format (R82), decode to the
instructions they stand for, through the byte order of R64. -/
def Obligations.DecodeSampleWords : Prop :=
  decode [0x00, 0xE0] = .ok (.cls, []) ∧ decode [0x00, 0xEE] = .ok (.ret, []) ∧
  decode [0x1A, 0xBC] = .ok (.jp 0xABC, []) ∧ decode [0xB3, 0x00] = .ok (.jpV0 0x300, []) ∧
  decode [0x6A, 0x9C, 0xA3] = .ok (.ldByte 0xA 0x9C, [0xA3]) ∧ decode [0x81, 0x24] = .ok (.addReg 1 2, []) ∧
  decode [0xD0, 0x15] = .ok (.drw 0 1 5, []) ∧ decode [0xE1, 0x9E] = .ok (.skp 1, []) ∧
  decode [0xF3, 0x33] = .ok (.ldBVx 3, []) ∧ decode [0x01, 0xE0] = .error (.illegal 0x01E0) ∧
  decode [0x12] = .error .incomplete ∧ decodeTableWord 16 0xF265 = some (.loadRegs 2)

/-- Decoding the encoded bytes of any well-formed instruction, whatever bytes follow, gives it back with every operand. -/
def Obligations.DecodeEncodeRoundTrip : Prop :=
  ∀ (i : Instr) (rest : List Byte), i.wellFormed = true →
    decode (encodeBytes i ++ rest) = .ok (i, rest) ∧ decodeTableWord 16 (encode i).toNat = some i

/-- Encoding the instruction a word decodes to gives the word back: the decoder drops no bit of it. -/
def Obligations.EncodeDecodeRoundTrip : Prop :=
  ∀ (op : Word) (i : Instr), decodeWord op = some i → encode i = op

/-- The decoder accepts a word exactly when it lies in a row of the opcode table, and gives that row's instruction; no word
lies in two rows (R90, R91, R92). -/
def Obligations.DecodeFollowsOpcodeTable : Prop :=
  ∀ op : Word,
    ((decodeWord op).isSome = true ↔ legalWord op = true) ∧
    (∀ i, decodeWord op = some i → ∀ r ∈ opcodeTable, (r.holds op = true ↔ r.mnemonic = i.mnemonic))

/-- The sub-dispatch of families 0, 5, 8, 9, E and F (R85–R89), every word of them: which are instructions, and which. -/
def Obligations.FamilySubDispatch : Prop :=
  (∀ w : Nat, w < 0x1000 → decodeWord (BitVec.ofNat 16 w) =
    if w = 0x00E0 then some .cls else if w = 0x00EE then some .ret else none) ∧
  (∀ x y n : Fin 16,
    decodeWord (opcodeOf 0x5 x y n) = (if n = 0 then some (.seReg x y) else none) ∧
    decodeWord (opcodeOf 0x9 x y n) = (if n = 0 then some (.sneReg x y) else none) ∧
    (n ∈ [0x8, 0x9, 0xA, 0xB, 0xC, 0xD, 0xF] → decodeWord (opcodeOf 0x8 x y n) = none)) ∧
  (∀ x y : Fin 16,
    decodeWord (opcodeOf 0x8 x y 0x0) = some (.ldReg x y) ∧ decodeWord (opcodeOf 0x8 x y 0x1) = some (.orReg x y) ∧
    decodeWord (opcodeOf 0x8 x y 0x2) = some (.andReg x y) ∧ decodeWord (opcodeOf 0x8 x y 0x3) = some (.xorReg x y) ∧
    decodeWord (opcodeOf 0x8 x y 0x4) = some (.addReg x y) ∧ decodeWord (opcodeOf 0x8 x y 0x5) = some (.subReg x y) ∧
    decodeWord (opcodeOf 0x8 x y 0x6) = some (.shrReg x y) ∧ decodeWord (opcodeOf 0x8 x y 0x7) = some (.subnReg x y) ∧
    decodeWord (opcodeOf 0x8 x y 0xE) = some (.shlReg x y)) ∧
  (∀ x y n : Fin 16, decodeWord (opcodeOf 0xE x y n) =
    if y = 0x9 ∧ n = 0xE then some (.skp x) else if y = 0xA ∧ n = 0x1 then some (.sknp x) else none) ∧
  (∀ x y n : Fin 16, decodeWord (opcodeOf 0xF x y n) =
    if y = 0x0 ∧ n = 0x7 then some (.ldVxDt x) else if y = 0x0 ∧ n = 0xA then some (.ldVxKey x)
    else if y = 0x1 ∧ n = 0x5 then some (.ldDtVx x) else if y = 0x1 ∧ n = 0x8 then some (.ldStVx x)
    else if y = 0x1 ∧ n = 0xE then some (.addIVx x) else if y = 0x2 ∧ n = 0x9 then some (.ldFVx x)
    else if y = 0x3 ∧ n = 0x3 then some (.ldBVx x) else if y = 0x5 ∧ n = 0x5 then some (.storeRegs x)
    else if y = 0x6 ∧ n = 0x5 then some (.loadRegs x) else none)

/-! ### The cycle -/

/-- When the two bytes at PC decode to a well-formed instruction, a step of a running core is its execute step, in the state
in which the load gate is closed (R111) and `rnd` is this CYCLE's argument (R107): a free draw when the script is empty,
the script's own when it names a CYCLE. (The script and the free draw are the model's: log 1 and log 3.) -/
def Obligations.StepRunsDecodedInstruction : Prop :=
  ∀ (s : State) (i : Instr), s.halted = false → s.PC.toNat ≤ 0x0FFE → i.wellFormed = true →
    decode [s.readByte s.PC.toNat, s.readByte (s.PC.toNat + 1)] = .ok (i, []) →
    (s.script = [] →
      step s = exec i { s with draws := s.draws + 1, loadClosed := true, rnd := Config.freeRnd s.draws }) ∧
    (∀ rnd rest, s.script = .cycle rnd :: rest →
      step s = exec i { s with script := rest, loadClosed := true, rnd := rnd })

/-- R101: a fetch at PC ≥ 0x0FFF raises FETCH_RANGE with the record of R232 and changes nothing else but the load gate (of the
model's own field `rnd`, log 3, nothing is said); any other PC, odd ones too, gives the big-endian word of the two bytes
there. -/
def Obligations.FetchReadsWordOrFaults : Prop :=
  ∀ (s : State) (rnd : Byte), s.halted = false →
    (0x0FFF ≤ s.PC.toNat → s.fetch = none ∧
      ∃ t, cycle rnd s = .next t ∧ t.fault = ⟨.fetchRange, s.PC, 0, s.PC⟩ ∧ t.loadClosed = true ∧
        UnchangedExcept [.fault, .loadClosed, .rnd] s t) ∧
    (s.PC.toNat ≤ 0x0FFE → ∃ op, s.fetch = some op ∧
      op.toNat = (s.readByte s.PC.toNat).toNat * 256 + (s.readByte (s.PC.toNat + 1)).toNat)

/-- R102: a fetched word that matches none of the 34 patterns raises ILLEGAL_INSTRUCTION with the word itself; nothing else
but the load gate changes (of the model's own field `rnd`, log 3, nothing is said). -/
def Obligations.IllegalWordFaults : Prop :=
  ∀ (s : State) (rnd : Byte) (op : Word), s.halted = false → s.fetch = some op →
    (∀ r ∈ opcodeTable, op &&& r.mask ≠ r.pattern) →
    ∃ t, cycle rnd s = .next t ∧ t.fault = ⟨.illegalInstruction, s.PC, op, op⟩ ∧ t.loadClosed = true ∧
      UnchangedExcept [.fault, .loadClosed, .rnd] s t

/-- R100, R237: while the core is halted CYCLE, TICK and SET_KEYS change nothing, LOAD is refused, and the two reads work. -/
def Obligations.HaltedCoreStandsStill : Prop :=
  ∀ (s : State) (rnd : Byte) (k : Keys) (image : List Byte), s.halted = true →
    transact (.cycle rnd) s = .next (s, .halted) ∧ transact .tick s = .next (s, .none) ∧
    transact (.setKeys k) s = .next (s, .none) ∧ transact (.load image) s = .next (s, .refused) ∧
    transact .readFb s = .next (s, .framebuffer s.fb) ∧ transact .readFault s = .next (s, .record s.fault)

/-- No step, no transaction and no instruction stops the machine: a fault is a next state (R234, R235). -/
def Obligations.EverythingAnswersNext : Prop :=
  (∀ s, ∃ t, step s = .next t) ∧ (∀ tr s, ∃ t r, transact tr s = .next (t, r)) ∧ (∀ i s, ∃ t, exec i s = .next t)

/-- R106: a cycle that faults leaves everything as it was but the fault record and the load gate (of the model's own field
`rnd`, log 3, nothing is said). -/
def Obligations.FaultsArePrecise : Prop :=
  ∀ (s t : State) (rnd : Byte), s.halted = false → cycle rnd s = .next t → t.halted = true →
    UnchangedExcept [.fault, .loadClosed, .rnd] s t ∧ t.loadClosed = true ∧ t.fault.pc = s.PC

/-- R230, R232, R233: which fault a cycle raises, on which condition and with which record, for every cause; and the numbers
of the causes. -/
def Obligations.CycleFaultRecord : Prop :=
  (∀ (s t : State) (rnd : Byte), s.halted = false → cycle rnd s = .next t → t.fault = recordAfterCycle s) ∧
  FaultCause.none.code = 0 ∧ FaultCause.fetchRange.code = 1 ∧ FaultCause.illegalInstruction.code = 2 ∧
  FaultCause.memRange.code = 3 ∧ FaultCause.keyRange.code = 4 ∧ FaultCause.stackOverflow.code = 5 ∧
  FaultCause.stackUnderflow.code = 6

/-- R63: an instruction that reaches several data addresses `I + k` raises MEM_RANGE with the lowest one that is at least
0x1000, and changes nothing else. -/
def Obligations.DataAddressFaults : Prop :=
  ∀ (i : Instr) (s : State), (∃ k < dataBytes i, 0x1000 ≤ s.I.toNat + k) →
    ∃ k < dataBytes i, 0x1000 ≤ s.dataAddr k ∧
      (∀ j < dataBytes i, 0x1000 ≤ s.dataAddr j → s.dataAddr k ≤ s.dataAddr j) ∧
      exec i s = .next { s with fault := ⟨.memRange, s.PC, encode i, BitVec.ofNat 16 (s.dataAddr k)⟩ }

/-- What a CYCLE returns (R110). -/
def Obligations.CycleReturns : Prop :=
  ∀ (s : State) (rnd : Byte), ∃ t r, cycle rnd s = .next t ∧ transact (.cycle rnd) s = .next (t, r) ∧
    (r = .halted ↔ s.halted = true) ∧
    (∀ c, r = .fault c ↔ s.halted = false ∧ t.halted = true ∧ t.fault.cause = c) ∧
    (r = .blocked ↔ s.halted = false ∧ (∃ x, s.fetchedInstr = some (.ldVxKey x)) ∧ t.PC = s.PC) ∧
    (r = .halted ∨ (∃ c, r = .fault c) ∨ r = .blocked ∨ r = .ok)

/-! ### Rules about all instructions -/

/-- R23: no instruction but those R23 and R24 name writes a general register, and those write only the ones named. -/
def Obligations.GeneralRegisterWriters : Prop :=
  ∀ (i : Instr) (s t : State) (r : RegIndex), exec i s = .next t → mayWrite i r = false → t.getV r = s.getV r

/-- The frame of every instruction: only the parts its rule names may change, and the fault record with them only where it
faults. Within the parts that may change, what is not written is kept too: every byte of memory outside the bytes at I that
the instruction reaches (none for a form that reaches none), every general register R23 and R24 do not name, and every stack
entry but the one SP names; the cells DXYN keeps are in `Obligations.DrawTogglesSpriteCells`. -/
def Obligations.FrameOfEveryInstruction : Prop :=
  ∀ (i : Instr) (s t : State), exec i s = .next t →
    UnchangedExcept (.fault :: mayChange i) s t ∧ (executeFault i s = none → t.fault = s.fault) ∧
    (MemoryCanonical s → BytesKeptOutside (s.dataAddr 0) (dataBytes i) s t) ∧
    RegsKeptExcept (fun r => mayWrite i r = true) s t ∧
    (∀ k : Fin 16, k ≠ stackIndex s.SP.val → t.stack[k.val] = s.stack[k.val])

/-- R112: the PC after each instruction that raises no fault. -/
def Obligations.PcAfterEachInstruction : Prop :=
  ∀ (i : Instr) (s t : State), executeFault i s = none → exec i s = .next t → t.PC = pcAfter i s

/-- What no instruction reads: the wait state but for FX0A (R35, R36), the sound timer (R32), the random byte but for CXNN
(R107). Changing them before changes them after, and nothing else. -/
def Obligations.HiddenStateIsNotRead : Prop :=
  ∀ (i : Instr) (s t : State), exec i s = .next t →
    (∀ (w : Bool) (p : Keys), (∀ x, i ≠ .ldVxKey x) →
      exec i { s with waiting := w, prevKeys := p } = .next { t with waiting := w, prevKeys := p }) ∧
    (∀ b : Byte, (∀ x, i ≠ .ldStVx x) → exec i { s with ST := b } = .next { t with ST := b }) ∧
    (∀ b : Byte, (∀ x nn, i ≠ .rndByte x nn) → exec i { s with rnd := b } = .next { t with rnd := b })

/-- Who changes the shared parts of the machine: memory (R69), the timers (R242), the framebuffer (R33), the keys (R34) and
the stack (R29). -/
def Obligations.OnlyNamedTransactionsChange : Prop :=
  ∀ (tr : Transaction) (s t : State) (r : Result), transact tr s = .next (t, r) → tr ≠ .reset →
    ((∃ a, t.readByte a ≠ s.readByte a) →
      (∃ image, tr = .load image) ∨
        ∃ rnd x, tr = .cycle rnd ∧ (s.fetchedInstr = some (.ldBVx x) ∨ s.fetchedInstr = some (.storeRegs x))) ∧
    (t.DT ≠ s.DT → tr = .tick ∨ ∃ rnd x, tr = .cycle rnd ∧ s.fetchedInstr = some (.ldDtVx x)) ∧
    (t.ST ≠ s.ST → tr = .tick ∨ ∃ rnd x, tr = .cycle rnd ∧ s.fetchedInstr = some (.ldStVx x)) ∧
    (t.fb ≠ s.fb → ∃ rnd, tr = .cycle rnd ∧
      (s.fetchedInstr = some .cls ∨ ∃ x y n, s.fetchedInstr = some (.drw x y n))) ∧
    (t.keys ≠ s.keys → ∃ k, tr = .setKeys k) ∧
    (t.stack ≠ s.stack → ∃ rnd nnn, tr = .cycle rnd ∧ s.fetchedInstr = some (.call nnn))

/-! ### Control flow -/

/-- R122, R128: the two jumps. -/
def Obligations.JumpsComplete : Prop :=
  ∀ (s : State) (nnn : Addr),
    (∃ t, exec (.jp nnn) s = .next t ∧ t.PC.toNat = nnn.toNat ∧ UnchangedExcept [.PC] s t) ∧
    (∃ t, exec (.jpV0 nnn) s = .next t ∧ t.PC.toNat = nnn.toNat + (s.getV 0).toNat ∧ UnchangedExcept [.PC] s t)

/-- R123, with Push of R120, under both stack policies: the call's own address is pushed. -/
def Obligations.CallPushesItsAddress : Prop :=
  ∀ (s : State) (nnn : Addr), StackPointerInRange s →
    (¬ (s.config.stackPolicy = .fault ∧ s.SP.val = 16) →
      ∃ t, exec (.call nnn) s = .next t ∧ t.PC.toNat = nnn.toNat ∧
        (∀ k : Fin 16, t.stack[k.val] = if k.val = s.SP.val then s.PC else s.stack[k.val]) ∧
        (s.config.stackPolicy = .wrap → t.SP.val = (s.SP.val + 1) % 16) ∧
        (s.config.stackPolicy = .fault → t.SP.val = s.SP.val + 1) ∧
        UnchangedExcept [.PC, .stack, .SP] s t) ∧
    (s.config.stackPolicy = .fault → s.SP.val = 16 →
      exec (.call nnn) s = .next { s with fault := ⟨.stackOverflow, s.PC, encode (.call nnn), 16⟩ })

/-- R121, with Pop of R120, under both stack policies: PC is the popped entry plus 2. -/
def Obligations.ReturnPopsAddress : Prop :=
  ∀ s : State, StackPointerInRange s →
    (¬ (s.config.stackPolicy = .fault ∧ s.SP.val = 0) →
      ∃ t, exec .ret s = .next t ∧
        (∃ k : Fin 16, k.val = (s.SP.val + 15) % 16 ∧ t.PC = s.stack[k.val] + 2 ∧
          (s.config.stackPolicy = .wrap → t.SP.val = k.val) ∧
          (s.config.stackPolicy = .fault → t.SP.val = k.val ∧ k.val = s.SP.val - 1)) ∧
        UnchangedExcept [.PC, .SP] s t) ∧
    (s.config.stackPolicy = .fault → s.SP.val = 0 →
      exec .ret s = .next { s with fault := ⟨.stackUnderflow, s.PC, encode .ret, 0⟩ })

/-- The source's property E12 (R121, R123): a return after a call goes to the instruction after the call, with SP as it was
before, whatever the parameters; only the slot the call wrote is left changed. -/
def Obligations.CallThenReturn : Prop :=
  ∀ (s : State) (nnn : Addr), StackPointerInRange s → ¬ (s.config.stackPolicy = .fault ∧ s.SP.val = 16) →
    ∃ t u, exec (.call nnn) s = .next t ∧ exec .ret t = .next u ∧ u.PC = s.PC + 2 ∧ u.SP = s.SP ∧
      (∀ k : Fin 16, k.val ≠ s.SP.val → u.stack[k.val] = s.stack[k.val]) ∧
      UnchangedExcept [.PC, .stack] s u

/-- R124–R127: the four register skips. -/
def Obligations.RegisterSkipsComplete : Prop :=
  ∀ (s : State) (x y : RegIndex) (nn : Byte),
    (∃ t, exec (.seByte x nn) s = .next t ∧ UnchangedExcept [.PC] s t ∧
      t.PC = if (s.getV x).toNat = nn.toNat then s.PC + 4 else s.PC + 2) ∧
    (∃ t, exec (.sneByte x nn) s = .next t ∧ UnchangedExcept [.PC] s t ∧
      t.PC = if (s.getV x).toNat = nn.toNat then s.PC + 2 else s.PC + 4) ∧
    (∃ t, exec (.seReg x y) s = .next t ∧ UnchangedExcept [.PC] s t ∧
      t.PC = if (s.getV x).toNat = (s.getV y).toNat then s.PC + 4 else s.PC + 2) ∧
    (∃ t, exec (.sneReg x y) s = .next t ∧ UnchangedExcept [.PC] s t ∧
      t.PC = if (s.getV x).toNat = (s.getV y).toNat then s.PC + 2 else s.PC + 4)

/-! ### ALU -/

/-- R142, R143: load and add an immediate; no flag. -/
def Obligations.ImmediateLoadAndAdd : Prop :=
  ∀ (s : State) (x : RegIndex) (nn : Byte),
    (∃ t, exec (.ldByte x nn) s = .next t ∧ t.getV x = nn ∧ RegsKeptExcept (· = x) s t ∧ t.PC = s.PC + 2 ∧
      UnchangedExcept [.V, .PC] s t) ∧
    (∃ t, exec (.addByte x nn) s = .next t ∧ (t.getV x).toNat = ((s.getV x).toNat + nn.toNat) % 256 ∧
      RegsKeptExcept (· = x) s t ∧ t.PC = s.PC + 2 ∧ UnchangedExcept [.V, .PC] s t)

/-- R144–R147: copy, or, and, exclusive or; VF is written only as the destination. -/
def Obligations.RegisterCopyAndLogic : Prop :=
  ∀ (s : State) (x y : RegIndex),
    (∃ t, exec (.ldReg x y) s = .next t ∧ t.getV x = s.getV y ∧ RegsKeptExcept (· = x) s t ∧ t.PC = s.PC + 2 ∧
      UnchangedExcept [.V, .PC] s t) ∧
    (∃ t, exec (.orReg x y) s = .next t ∧
      (∀ k < 8, (t.getV x).getLsbD k = ((s.getV x).getLsbD k || (s.getV y).getLsbD k)) ∧
      RegsKeptExcept (· = x) s t ∧ t.PC = s.PC + 2 ∧ UnchangedExcept [.V, .PC] s t) ∧
    (∃ t, exec (.andReg x y) s = .next t ∧
      (∀ k < 8, (t.getV x).getLsbD k = ((s.getV x).getLsbD k && (s.getV y).getLsbD k)) ∧
      RegsKeptExcept (· = x) s t ∧ t.PC = s.PC + 2 ∧ UnchangedExcept [.V, .PC] s t) ∧
    (∃ t, exec (.xorReg x y) s = .next t ∧
      (∀ k < 8, (t.getV x).getLsbD k = ((s.getV x).getLsbD k ^^ (s.getV y).getLsbD k)) ∧
      RegsKeptExcept (· = x) s t ∧ t.PC = s.PC + 2 ∧ UnchangedExcept [.V, .PC] s t)

/-- R148, under both settings of P_VF_ALIAS and for every X and Y: the wrapped sum, and the carry where X ≠ Y; where X = Y,
`sequential` compares the sum with itself and `latched` still gives the carry. -/
def Obligations.AddWithCarry : Prop :=
  ∀ (s : State) (x y : RegIndex), ∃ t, exec (.addReg x y) s = .next t ∧
    (x ≠ VF → (t.getV x).toNat = ((s.getV x).toNat + (s.getV y).toNat) % 256) ∧
    (x ≠ y → t.getV VF = if 256 ≤ (s.getV x).toNat + (s.getV y).toNat then 1 else 0) ∧
    (x = y → s.config.vfAlias = .sequential → t.getV VF = 0) ∧
    (x = y → s.config.vfAlias = .latched → t.getV VF = if 256 ≤ 2 * (s.getV x).toNat then 1 else 0) ∧
    RegsKeptExcept (fun r => r = x ∨ r = VF) s t ∧ t.PC = s.PC + 2 ∧ UnchangedExcept [.V, .PC] s t

/-- R149: `V[X] − V[Y]` and NOT borrow, with every aliasing case under both settings of P_VF_ALIAS. -/
def Obligations.SubtractWithBorrow : Prop :=
  ∀ (s : State) (x y : RegIndex) (a b f : Byte), a = s.getV x → b = s.getV y →
    f = (if a.toNat < b.toNat then 0 else 1) →
    ∃ t, exec (.subReg x y) s = .next t ∧
      (x ≠ VF → y ≠ VF → t.getV x = a - b ∧ t.getV VF = f) ∧
      (x = VF → y ≠ VF → s.config.vfAlias = .sequential → t.getV VF = f - b) ∧
      (x = VF → y ≠ VF → s.config.vfAlias = .latched → t.getV VF = f) ∧
      (x ≠ VF → y = VF → s.config.vfAlias = .sequential → t.getV x = a - f ∧ t.getV VF = f) ∧
      (x ≠ VF → y = VF → s.config.vfAlias = .latched → t.getV x = a - b ∧ t.getV VF = f) ∧
      (x = VF → y = VF → s.config.vfAlias = .sequential → t.getV VF = 0) ∧
      (x = VF → y = VF → s.config.vfAlias = .latched → t.getV VF = 1) ∧
      RegsKeptExcept (fun r => r = x ∨ r = VF) s t ∧ t.PC = s.PC + 2 ∧ UnchangedExcept [.V, .PC] s t

/-- R151: `V[Y] − V[X]` and NOT borrow, with every aliasing case under both settings of P_VF_ALIAS. -/
def Obligations.ReverseSubtractWithBorrow : Prop :=
  ∀ (s : State) (x y : RegIndex) (a b f : Byte), a = s.getV x → b = s.getV y →
    f = (if b.toNat < a.toNat then 0 else 1) →
    ∃ t, exec (.subnReg x y) s = .next t ∧
      (x ≠ VF → y ≠ VF → t.getV x = b - a ∧ t.getV VF = f) ∧
      (x = VF → y ≠ VF → s.config.vfAlias = .sequential → t.getV VF = b - f) ∧
      (x = VF → y ≠ VF → s.config.vfAlias = .latched → t.getV VF = f) ∧
      (x ≠ VF → y = VF → s.config.vfAlias = .sequential → t.getV x = f - a ∧ t.getV VF = f) ∧
      (x ≠ VF → y = VF → s.config.vfAlias = .latched → t.getV x = b - a ∧ t.getV VF = f) ∧
      (x = VF → y = VF → s.config.vfAlias = .sequential → t.getV VF = 0) ∧
      (x = VF → y = VF → s.config.vfAlias = .latched → t.getV VF = 1) ∧
      RegsKeptExcept (fun r => r = x ∨ r = VF) s t ∧ t.PC = s.PC + 2 ∧ UnchangedExcept [.V, .PC] s t

/-- R150, R152: the two shifts, VF the bit shifted out, with X = F under both settings of P_VF_ALIAS; Y is not read. -/
def Obligations.ShiftsByOne : Prop :=
  ∀ (s : State) (x y : RegIndex) (a : Byte), a = s.getV x →
    (∃ t, exec (.shrReg x y) s = .next t ∧
      (x ≠ VF → (t.getV x).toNat = a.toNat / 2 ∧ (t.getV VF).toNat = a.toNat % 2) ∧
      (x = VF → s.config.vfAlias = .sequential → t.getV VF = 0) ∧
      (x = VF → s.config.vfAlias = .latched → (t.getV VF).toNat = a.toNat % 2) ∧
      RegsKeptExcept (fun r => r = x ∨ r = VF) s t ∧ t.PC = s.PC + 2 ∧ UnchangedExcept [.V, .PC] s t) ∧
    (∃ t, exec (.shlReg x y) s = .next t ∧
      (x ≠ VF → (t.getV x).toNat = 2 * a.toNat % 256 ∧ (t.getV VF).toNat = a.toNat / 128) ∧
      (x = VF → s.config.vfAlias = .sequential → (t.getV VF).toNat = 2 * (a.toNat / 128)) ∧
      (x = VF → s.config.vfAlias = .latched → (t.getV VF).toNat = a.toNat / 128) ∧
      RegsKeptExcept (fun r => r = x ∨ r = VF) s t ∧ t.PC = s.PC + 2 ∧ UnchangedExcept [.V, .PC] s t)

/-- R141: but for X = F, Y = F and X = Y, the two settings of P_VF_ALIAS give the same results. -/
def Obligations.AliasSettingsAgree : Prop :=
  ∀ (s : State) (x y : RegIndex) (i : Instr), x ≠ VF → y ≠ VF → x ≠ y →
    i ∈ [.addReg x y, .subReg x y, .shrReg x y, .subnReg x y, .shlReg x y] →
    ∃ t u, exec i { s with config := { s.config with vfAlias := .sequential } } = .next t ∧
      exec i { s with config := { s.config with vfAlias := .latched } } = .next u ∧
      (∀ r, t.getV r = u.getV r) ∧ UnchangedExcept [.V, .config] t u

/-- R153: the random byte masked by NN, for every value of the CYCLE's argument; the CYCLE that fetches it passes that
argument on. (The model holds the argument in its own field `rnd`: log 3.) -/
def Obligations.RandomByteMasked : Prop :=
  (∀ (s : State) (x : RegIndex) (nn : Byte), ∃ t, exec (.rndByte x nn) s = .next t ∧
    (∀ k < 8, (t.getV x).getLsbD k = (s.rnd.getLsbD k && nn.getLsbD k)) ∧
    RegsKeptExcept (· = x) s t ∧ t.PC = s.PC + 2 ∧ UnchangedExcept [.V, .PC] s t) ∧
  (∀ (s : State) (x : RegIndex) (nn rnd : Byte), s.halted = false → s.fetchedInstr = some (.rndByte x nn) →
    ∃ t, cycle rnd s = .next t ∧ t.getV x = rnd &&& nn)

/-! ### Index register and memory -/

/-- R170, R171, R172: the three writes of I without memory. -/
def Obligations.IndexRegisterLoads : Prop :=
  ∀ (s : State) (x : RegIndex) (nnn : Addr),
    (∃ t, exec (.ldI nnn) s = .next t ∧ t.I.toNat = nnn.toNat ∧ t.PC = s.PC + 2 ∧ UnchangedExcept [.I, .PC] s t) ∧
    (∃ t, exec (.addIVx x) s = .next t ∧ t.I.toNat = (s.I.toNat + (s.getV x).toNat) % 0x10000 ∧ t.PC = s.PC + 2 ∧
      UnchangedExcept [.I, .PC] s t) ∧
    (∃ t, exec (.ldFVx x) s = .next t ∧ t.I.toNat = (s.getV x).toNat * 5 ∧ t.PC = s.PC + 2 ∧
      UnchangedExcept [.I, .PC] s t)

/-- R173: the decimal digits of V[X] at I, I + 1, I + 2, or MEM_RANGE with no byte written. -/
def Obligations.DecimalDigitsStored : Prop :=
  ∀ (s : State) (x : RegIndex), MemoryCanonical s →
    (s.dataAddr 2 ≤ 0xFFF → ∃ t, exec (.ldBVx x) s = .next t ∧
      (t.readByte (s.dataAddr 0)).toNat = (s.getV x).toNat / 100 ∧
      (t.readByte (s.dataAddr 1)).toNat = (s.getV x).toNat / 10 % 10 ∧
      (t.readByte (s.dataAddr 2)).toNat = (s.getV x).toNat % 10 ∧
      BytesKeptOutside (s.dataAddr 0) 3 s t ∧ t.PC = s.PC + 2 ∧ UnchangedExcept [.mem, .PC] s t) ∧
    (0xFFF < s.dataAddr 2 →
      exec (.ldBVx x) s = .next { s with fault :=
        ⟨.memRange, s.PC, encode (.ldBVx x), BitVec.ofNat 16 (max s.I.toNat 0x1000)⟩ })

/-- R174: V[0..X] to memory at I, and I moved past them; or MEM_RANGE with nothing written. -/
def Obligations.RegistersStored : Prop :=
  ∀ (s : State) (x : RegIndex), MemoryCanonical s →
    (s.dataAddr x.val ≤ 0xFFF → ∃ t, exec (.storeRegs x) s = .next t ∧
      (∀ k : Fin 16, k ≤ x → t.readByte (s.dataAddr k.val) = s.getV k) ∧
      BytesKeptOutside (s.dataAddr 0) (x.val + 1) s t ∧ t.I.toNat = (s.I.toNat + x.val + 1) % 0x10000 ∧
      t.PC = s.PC + 2 ∧ UnchangedExcept [.mem, .I, .PC] s t) ∧
    (0xFFF < s.dataAddr x.val →
      exec (.storeRegs x) s = .next { s with fault :=
        ⟨.memRange, s.PC, encode (.storeRegs x), BitVec.ofNat 16 (max s.I.toNat 0x1000)⟩ })

/-- R175: V[0..X] from memory at I, and I moved past them; or MEM_RANGE with no register written. -/
def Obligations.RegistersLoaded : Prop :=
  ∀ (s : State) (x : RegIndex),
    (s.dataAddr x.val ≤ 0xFFF → ∃ t, exec (.loadRegs x) s = .next t ∧
      (∀ k : Fin 16, k ≤ x → t.getV k = s.readByte (s.dataAddr k.val)) ∧
      RegsKeptExcept (· ≤ x) s t ∧ t.I.toNat = (s.I.toNat + x.val + 1) % 0x10000 ∧
      t.PC = s.PC + 2 ∧ UnchangedExcept [.V, .I, .PC] s t) ∧
    (0xFFF < s.dataAddr x.val →
      exec (.loadRegs x) s = .next { s with fault :=
        ⟨.memRange, s.PC, encode (.loadRegs x), BitVec.ofNat 16 (max s.I.toNat 0x1000)⟩ })

/-- The source's property E9 (R174, R175): FX55 and then FX65 with the same X and the same I give every register back, and
both leave I advanced by X + 1. -/
def Obligations.StoreThenLoadRoundTrips : Prop :=
  ∀ (s : State) (x : RegIndex) (v : Vector Byte 16), MemoryCanonical s → s.dataAddr x.val ≤ 0xFFF →
    (∀ k : Fin 16, x < k → v[k.val] = s.getV k) →
    ∃ t u, exec (.storeRegs x) s = .next t ∧ exec (.loadRegs x) { t with I := s.I, V := v } = .next u ∧
      (∀ r, u.getV r = s.getV r) ∧ t.I.toNat = s.I.toNat + x.val + 1 ∧ u.I = t.I ∧
      UnchangedExcept [.mem, .I, .PC] s u

/-- R77: bytes FX55 stored are what the next fetch there reads. -/
def Obligations.StoredBytesAreFetchedNext : Prop :=
  ∀ (s : State) (x k j : RegIndex), MemoryCanonical s → s.dataAddr x.val ≤ 0xFFF → k < x → j.val = k.val + 1 →
    ∃ t, exec (.storeRegs x) s = .next t ∧
      ∀ u : State, u.mem = t.mem → u.config = t.config → u.PC.toNat = s.dataAddr k.val →
        ∃ op, u.fetch = some op ∧ op.toNat = (s.getV k).toNat * 256 + (s.getV j).toNat

/-- Memory in canonical form is data: two memories that read alike everywhere are equal. (The form is the model's: log 9.) -/
def Obligations.EqualReadsEqualMemories : Prop :=
  ∀ s t : State, MemoryCanonical s → MemoryCanonical t → s.config.font = t.config.font →
    (∀ a, s.readByte a = t.readByte a) → s.mem = t.mem

/-! ### Display -/

/-- R190: the framebuffer cleared. -/
def Obligations.ClearScreen : Prop :=
  ∀ s : State, ∃ t, exec .cls s = .next t ∧ (∀ x y, t.fb.get x y = false) ∧ t.PC = s.PC + 2 ∧
    UnchangedExcept [.fb, .PC] s t

/-- R191: the cells under the sprite's set bits toggled and no other, VF the collision; or MEM_RANGE with nothing drawn. -/
def Obligations.DrawTogglesSpriteCells : Prop :=
  ∀ (s : State) (x y : RegIndex) (n : RowCount),
    (n.val = 0 ∨ s.dataAddr (n.val - 1) ≤ 0xFFF → ∃ t, exec (.drw x y n) s = .next t ∧
      (∀ cx cy, SpriteCovers s (s.getV x) (s.getV y) n cx cy → t.fb.get cx cy = !s.fb.get cx cy) ∧
      (∀ cx cy, ¬ SpriteCovers s (s.getV x) (s.getV y) n cx cy → t.fb.get cx cy = s.fb.get cx cy) ∧
      ((∃ cx cy, SpriteCovers s (s.getV x) (s.getV y) n cx cy ∧ s.fb.get cx cy = true) → t.getV VF = 1) ∧
      ((∀ cx cy, SpriteCovers s (s.getV x) (s.getV y) n cx cy → s.fb.get cx cy = false) → t.getV VF = 0) ∧
      RegsKeptExcept (· = VF) s t ∧ t.PC = s.PC + 2 ∧ UnchangedExcept [.fb, .V, .PC] s t) ∧
    (0 < n.val → 0xFFF < s.dataAddr (n.val - 1) →
      exec (.drw x y n) s = .next { s with fault :=
        ⟨.memRange, s.PC, encode (.drw x y n), BitVec.ofNat 16 (max s.I.toNat 0x1000)⟩ })

/-- R192: one DXYN visits no cell twice. -/
def Obligations.DrawVisitsNoCellTwice : Prop :=
  ∀ (s : State) (x0 y0 : Byte) (n : RowCount), (spriteCells x0 y0 0 (s.spriteBytes n)).Nodup

/-- R193, first sentence: the same sprite drawn again at the same origin restores every cell. The two clauses about VF are
the model's resolution, log 7 (DEDUCED): they follow R191 against R193's second sentence, and the second draw reports a
collision exactly when one of the sprite's cells was clear before the first. (Where X or Y is F, the first draw's
flag is taken back, so that the origin is the same.) -/
def Obligations.DrawTwiceRestores : Prop :=
  ∀ (s : State) (x y : RegIndex) (n : RowCount), n.val = 0 ∨ s.dataAddr (n.val - 1) ≤ 0xFFF →
    ∃ t u, exec (.drw x y n) s = .next t ∧ exec (.drw x y n) (t.setV VF (s.getV VF)) = .next u ∧
      (∀ cx cy, u.fb.get cx cy = s.fb.get cx cy) ∧
      ((∃ cx cy, SpriteCovers s (s.getV x) (s.getV y) n cx cy ∧ s.fb.get cx cy = false) → u.getV VF = 1) ∧
      ((∀ cx cy, SpriteCovers s (s.getV x) (s.getV y) n cx cy → s.fb.get cx cy = true) → u.getV VF = 0)

/-- R193, second sentence, as it is worded: the second draw sets VF = 1 if and only if the sprite has a set bit. It is
expected to FAIL: where the sprite's cells were all set before the first draw, the first draw clears them and the second
turns none off, so that R191 gives VF = 0 (log 7). -/
def Obligations.SecondDrawReportsCollision : Prop :=
  ∀ (s : State) (x y : RegIndex) (n : RowCount), x ≠ VF → y ≠ VF → n.val = 0 ∨ s.dataAddr (n.val - 1) ≤ 0xFFF →
    ∃ t u, exec (.drw x y n) s = .next t ∧ exec (.drw x y n) t = .next u ∧
      (u.getV VF = 1 ↔ ∃ r < n.val, s.readByte (s.dataAddr r) ≠ 0)

/-! ### Keys and timers -/

/-- R210, R211: the two key skips, and KEY_RANGE when V[X] names no key. -/
def Obligations.KeySkipsComplete : Prop :=
  ∀ (s : State) (x : RegIndex),
    (∀ k : KeyIndex, k.val = (s.getV x).toNat →
      (∃ t, exec (.skp x) s = .next t ∧ UnchangedExcept [.PC] s t ∧
        t.PC = if s.keys[k.val] = true then s.PC + 4 else s.PC + 2) ∧
      (∃ t, exec (.sknp x) s = .next t ∧ UnchangedExcept [.PC] s t ∧
        t.PC = if s.keys[k.val] = true then s.PC + 2 else s.PC + 4)) ∧
    (16 ≤ (s.getV x).toNat → ∀ i ∈ [Instr.skp x, Instr.sknp x],
      exec i s = .next { s with fault := ⟨.keyRange, s.PC, encode i, BitVec.ofNat 16 (s.getV x).toNat⟩ })

/-- R212, R215, R216: the timer registers read and written. -/
def Obligations.TimerRegisterMoves : Prop :=
  ∀ (s : State) (x : RegIndex),
    (∃ t, exec (.ldVxDt x) s = .next t ∧ t.getV x = s.DT ∧ RegsKeptExcept (· = x) s t ∧ t.PC = s.PC + 2 ∧
      UnchangedExcept [.V, .PC] s t) ∧
    (∃ t, exec (.ldDtVx x) s = .next t ∧ t.DT = s.getV x ∧ t.PC = s.PC + 2 ∧ UnchangedExcept [.DT, .PC] s t) ∧
    (∃ t, exec (.ldStVx x) s = .next t ∧ t.ST = s.getV x ∧ t.PC = s.PC + 2 ∧ UnchangedExcept [.ST, .PC] s t)

/-- R213: the three transitions of the FX0A machine: the first entry, a waiting cycle with no new press, and the completion
with the lowest newly pressed key. -/
def Obligations.KeyWaitTransitions : Prop :=
  ∀ (s : State) (x : RegIndex),
    (s.waiting = false → ∃ t, exec (.ldVxKey x) s = .next t ∧ t.waiting = true ∧ t.prevKeys = s.keys ∧
      UnchangedExcept [.waiting, .prevKeys] s t) ∧
    (s.waiting = true → (∀ k, ¬ NewlyPressed s k) → ∃ t, exec (.ldVxKey x) s = .next t ∧ t.prevKeys = s.keys ∧
      UnchangedExcept [.prevKeys] s t) ∧
    (∀ k, s.waiting = true → NewlyPressed s k → (∀ j, NewlyPressed s j → k ≤ j) →
      ∃ t, exec (.ldVxKey x) s = .next t ∧ (t.getV x).toNat = k.val ∧ RegsKeptExcept (· = x) s t ∧
        t.waiting = false ∧ t.PC = s.PC + 2 ∧ UnchangedExcept [.V, .waiting, .PC] s t)

/-! ### Host transactions -/

/-- A script is performed in order, one transaction a step, and no transaction touches the rest of it. (The script is the
model's own: log 1.) -/
def Obligations.ScriptIsPerformedInOrder : Prop :=
  ∀ (s : State) (tr : Transaction) (rest : List Transaction), s.script = tr :: rest →
    ∃ t r, transact tr { s with script := rest } = .next (t, r) ∧ step s = .next t ∧ t.script = rest ∧
      t.config = s.config

/-- R241: TICK counts both timers down, each stopping at 0, and changes nothing else; halted, it changes nothing. -/
def Obligations.TickCountsDown : Prop :=
  ∀ s : State, ∃ t, transact .tick s = .next (t, .none) ∧ UnchangedExcept [.DT, .ST] s t ∧
    (s.halted = false → t.DT.toNat = s.DT.toNat - 1 ∧ t.ST.toNat = s.ST.toNat - 1) ∧
    (s.halted = true → t = s)

/-- R248, R249, R250: SET_KEYS writes the whole vector at once and nothing else (halted, it changes nothing); READ_FB gives
32 rows of 64 cells and READ_FAULT the fault record, and neither changes anything. -/
def Obligations.KeyInputAndReads : Prop :=
  ∀ (s : State) (k : Keys),
    (∃ t, transact (.setKeys k) s = .next (t, .none) ∧ UnchangedExcept [.keys] s t ∧
      (s.halted = false → t.keys = k) ∧ (s.halted = true → t = s)) ∧
    (∃ rows, transact .readFb s = .next (s, .framebuffer rows) ∧
      ∀ (x : Fin 64) (y : Fin 32), rows[y.val][x.val] = s.fb.get x y) ∧
    transact .readFault s = .next (s, .record s.fault)

/-- R263: LOAD copies the image to 0x200 and closes the gate, or is refused and changes nothing. -/
def Obligations.LoadCopiesImage : Prop :=
  ∀ (s : State) (image : List Byte), MemoryCanonical s →
    (s.halted = false → s.loadClosed = false → image.length ≤ 3584 →
      ∃ t, transact (.load image) s = .next (t, .accepted) ∧ t.loadClosed = true ∧
        (∀ j b, image[j]? = some b → t.readByte (0x200 + j) = b) ∧
        BytesKeptOutside 0x200 image.length s t ∧ UnchangedExcept [.mem, .loadClosed] s t) ∧
    (s.halted = true ∨ s.loadClosed = true ∨ 3584 < image.length →
      transact (.load image) s = .next (s, .refused))

/-- R43, R260: RESET sets every item of state to its reset value, whatever the state was, halted included. -/
def Obligations.ResetSetsEverything : Prop :=
  ∀ s : State, ∃ t, transact .reset s = .next (t, .none) ∧
    (∀ a : Fin 80, t.readByte a.val = s.config.font[a.val]) ∧
    (∀ a, 0x050 ≤ a → a ≤ 0xFFF → t.readByte a = 0) ∧
    (∀ r, t.getV r = 0) ∧ t.I = 0 ∧ t.PC = 0x200 ∧ (∀ k : Fin 16, t.stack[k.val] = 0) ∧ t.SP = 0 ∧ t.DT = 0 ∧
    t.ST = 0 ∧ (∀ x y, t.fb.get x y = false) ∧ (∀ k : Fin 16, t.keys[k.val] = false) ∧
    (∀ k : Fin 16, t.prevKeys[k.val] = false) ∧ t.waiting = false ∧ t.fault = ⟨.none, 0, 0, 0⟩ ∧
    t.halted = false ∧ t.loadClosed = false

/-- R265: a parked program stays as it is: a CYCLE of a running core changes nothing but the load gate (and the model's copy
of its argument, log 3), a TICK nothing but the timers. -/
def Obligations.ParkedProgramStays : Prop :=
  ∀ (s : State) (a : Addr) (rnd : Byte), Parked a s → s.halted = false →
    cycle rnd s = .next { s with loadClosed := true, rnd := rnd } ∧
    ∃ t, transact .tick s = .next (t, .none) ∧ UnchangedExcept [.DT, .ST] s t ∧ Parked a t ∧ t.halted = false

/-! ### Invariants of every step -/

/-- The invariants below hold right after reset, whatever the parameters. -/
def Obligations.ResetMeetsInvariants : Prop :=
  ∀ c : Config, let s := State.resetWith c
    MemoryCanonical s ∧ StackPointerInRange s ∧ AddressesBounded s ∧ WaitingAtKeyWait s ∧ FaultRecordSound s

/-- Every step keeps memory in its canonical form (the model's own: log 9), inside the 4096 bytes of R60. -/
def Obligations.StepKeepsMemoryCanonical : Prop :=
  ∀ s t : State, MemoryCanonical s → step s = .next t → MemoryCanonical t

/-- Every step keeps SP in its range (R7, R120). (That SP is held as 0..16 under both policies is the model's: log 4.) -/
def Obligations.StepKeepsStackPointerInRange : Prop :=
  ∀ s t : State, StackPointerInRange s → step s = .next t → StackPointerInRange t

/-- Every step keeps PC at most 0x10FE and every stack entry at most 0x0FFE (R121, R128). -/
def Obligations.StepKeepsAddressesBounded : Prop :=
  ∀ s t : State, AddressesBounded s → step s = .next t → AddressesBounded t

/-- R214: whenever `waiting` is set, the word at PC is an FX0A; every step keeps it so. -/
def Obligations.StepKeepsWaitingAtKeyWait : Prop :=
  ∀ s t : State, WaitingAtKeyWait s → step s = .next t → WaitingAtKeyWait t

/-- R214: while `waiting` stays set, PC, memory and with them the X of the FX0A stay as they were. -/
def Obligations.WaitingKeepsPcAndInstruction : Prop :=
  ∀ s t : State, WaitingAtKeyWait s → s.waiting = true → step s = .next t → t.waiting = true →
    t.PC = s.PC ∧ (∀ a, t.readByte a = s.readByte a) ∧ t.fetchedInstr = s.fetchedInstr

/-- Every step keeps the fault record sound (R37, R230, R232, R237). -/
def Obligations.StepKeepsFaultRecordSound : Prop :=
  ∀ s t : State, FaultRecordSound s → step s = .next t → FaultRecordSound t
end

