-- ==== Sys2Proof/Laws/State.lean ====
section
/-!
SUPPORT. One lemma per field per state update, true by unfolding, so that no later proof unfolds a record update.
-/

namespace Sys2Proof.Machine

variable (s : State)

/-! ### `setV` -/

@[simp] theorem State.setV_mem (x : RegIndex) (b : Byte) : (s.setV x b).mem = s.mem := rfl
@[simp] theorem State.setV_V (x : RegIndex) (b : Byte) : (s.setV x b).V = s.V.set x.val b := rfl
@[simp] theorem State.setV_I (x : RegIndex) (b : Byte) : (s.setV x b).I = s.I := rfl
@[simp] theorem State.setV_PC (x : RegIndex) (b : Byte) : (s.setV x b).PC = s.PC := rfl
@[simp] theorem State.setV_stack (x : RegIndex) (b : Byte) : (s.setV x b).stack = s.stack := rfl
@[simp] theorem State.setV_SP (x : RegIndex) (b : Byte) : (s.setV x b).SP = s.SP := rfl
@[simp] theorem State.setV_DT (x : RegIndex) (b : Byte) : (s.setV x b).DT = s.DT := rfl
@[simp] theorem State.setV_ST (x : RegIndex) (b : Byte) : (s.setV x b).ST = s.ST := rfl
@[simp] theorem State.setV_fb (x : RegIndex) (b : Byte) : (s.setV x b).fb = s.fb := rfl
@[simp] theorem State.setV_keys (x : RegIndex) (b : Byte) : (s.setV x b).keys = s.keys := rfl
@[simp] theorem State.setV_prevKeys (x : RegIndex) (b : Byte) : (s.setV x b).prevKeys = s.prevKeys := rfl
@[simp] theorem State.setV_waiting (x : RegIndex) (b : Byte) : (s.setV x b).waiting = s.waiting := rfl
@[simp] theorem State.setV_fault (x : RegIndex) (b : Byte) : (s.setV x b).fault = s.fault := rfl
@[simp] theorem State.setV_loadClosed (x : RegIndex) (b : Byte) : (s.setV x b).loadClosed = s.loadClosed := rfl
@[simp] theorem State.setV_config (x : RegIndex) (b : Byte) : (s.setV x b).config = s.config := rfl
@[simp] theorem State.setV_rnd (x : RegIndex) (b : Byte) : (s.setV x b).rnd = s.rnd := rfl
@[simp] theorem State.setV_draws (x : RegIndex) (b : Byte) : (s.setV x b).draws = s.draws := rfl
@[simp] theorem State.setV_script (x : RegIndex) (b : Byte) : (s.setV x b).script = s.script := rfl

/-! ### `writeBytes` -/

@[simp] theorem State.writeBytes_mem (a : Nat) (bs : List Byte) : (s.writeBytes a bs).mem = Memory.writeAll s.config.font s.mem a bs := rfl
@[simp] theorem State.writeBytes_V (a : Nat) (bs : List Byte) : (s.writeBytes a bs).V = s.V := rfl
@[simp] theorem State.writeBytes_I (a : Nat) (bs : List Byte) : (s.writeBytes a bs).I = s.I := rfl
@[simp] theorem State.writeBytes_PC (a : Nat) (bs : List Byte) : (s.writeBytes a bs).PC = s.PC := rfl
@[simp] theorem State.writeBytes_stack (a : Nat) (bs : List Byte) : (s.writeBytes a bs).stack = s.stack := rfl
@[simp] theorem State.writeBytes_SP (a : Nat) (bs : List Byte) : (s.writeBytes a bs).SP = s.SP := rfl
@[simp] theorem State.writeBytes_DT (a : Nat) (bs : List Byte) : (s.writeBytes a bs).DT = s.DT := rfl
@[simp] theorem State.writeBytes_ST (a : Nat) (bs : List Byte) : (s.writeBytes a bs).ST = s.ST := rfl
@[simp] theorem State.writeBytes_fb (a : Nat) (bs : List Byte) : (s.writeBytes a bs).fb = s.fb := rfl
@[simp] theorem State.writeBytes_keys (a : Nat) (bs : List Byte) : (s.writeBytes a bs).keys = s.keys := rfl
@[simp] theorem State.writeBytes_prevKeys (a : Nat) (bs : List Byte) : (s.writeBytes a bs).prevKeys = s.prevKeys := rfl
@[simp] theorem State.writeBytes_waiting (a : Nat) (bs : List Byte) : (s.writeBytes a bs).waiting = s.waiting := rfl
@[simp] theorem State.writeBytes_fault (a : Nat) (bs : List Byte) : (s.writeBytes a bs).fault = s.fault := rfl
@[simp] theorem State.writeBytes_loadClosed (a : Nat) (bs : List Byte) : (s.writeBytes a bs).loadClosed = s.loadClosed := rfl
@[simp] theorem State.writeBytes_config (a : Nat) (bs : List Byte) : (s.writeBytes a bs).config = s.config := rfl
@[simp] theorem State.writeBytes_rnd (a : Nat) (bs : List Byte) : (s.writeBytes a bs).rnd = s.rnd := rfl
@[simp] theorem State.writeBytes_draws (a : Nat) (bs : List Byte) : (s.writeBytes a bs).draws = s.draws := rfl
@[simp] theorem State.writeBytes_script (a : Nat) (bs : List Byte) : (s.writeBytes a bs).script = s.script := rfl

/-! ### `advance` -/

@[simp] theorem State.advance_mem : s.advance.mem = s.mem := rfl
@[simp] theorem State.advance_V : s.advance.V = s.V := rfl
@[simp] theorem State.advance_I : s.advance.I = s.I := rfl
@[simp] theorem State.advance_PC : s.advance.PC = s.PC + 2 := rfl
@[simp] theorem State.advance_stack : s.advance.stack = s.stack := rfl
@[simp] theorem State.advance_SP : s.advance.SP = s.SP := rfl
@[simp] theorem State.advance_DT : s.advance.DT = s.DT := rfl
@[simp] theorem State.advance_ST : s.advance.ST = s.ST := rfl
@[simp] theorem State.advance_fb : s.advance.fb = s.fb := rfl
@[simp] theorem State.advance_keys : s.advance.keys = s.keys := rfl
@[simp] theorem State.advance_prevKeys : s.advance.prevKeys = s.prevKeys := rfl
@[simp] theorem State.advance_waiting : s.advance.waiting = s.waiting := rfl
@[simp] theorem State.advance_fault : s.advance.fault = s.fault := rfl
@[simp] theorem State.advance_loadClosed : s.advance.loadClosed = s.loadClosed := rfl
@[simp] theorem State.advance_config : s.advance.config = s.config := rfl
@[simp] theorem State.advance_rnd : s.advance.rnd = s.rnd := rfl
@[simp] theorem State.advance_draws : s.advance.draws = s.draws := rfl
@[simp] theorem State.advance_script : s.advance.script = s.script := rfl

/-! ### `skip` -/

@[simp] theorem State.skip_mem : s.skip.mem = s.mem := rfl
@[simp] theorem State.skip_V : s.skip.V = s.V := rfl
@[simp] theorem State.skip_I : s.skip.I = s.I := rfl
@[simp] theorem State.skip_PC : s.skip.PC = s.PC + 4 := rfl
@[simp] theorem State.skip_stack : s.skip.stack = s.stack := rfl
@[simp] theorem State.skip_SP : s.skip.SP = s.SP := rfl
@[simp] theorem State.skip_DT : s.skip.DT = s.DT := rfl
@[simp] theorem State.skip_ST : s.skip.ST = s.ST := rfl
@[simp] theorem State.skip_fb : s.skip.fb = s.fb := rfl
@[simp] theorem State.skip_keys : s.skip.keys = s.keys := rfl
@[simp] theorem State.skip_prevKeys : s.skip.prevKeys = s.prevKeys := rfl
@[simp] theorem State.skip_waiting : s.skip.waiting = s.waiting := rfl
@[simp] theorem State.skip_fault : s.skip.fault = s.fault := rfl
@[simp] theorem State.skip_loadClosed : s.skip.loadClosed = s.loadClosed := rfl
@[simp] theorem State.skip_config : s.skip.config = s.config := rfl
@[simp] theorem State.skip_rnd : s.skip.rnd = s.rnd := rfl
@[simp] theorem State.skip_draws : s.skip.draws = s.draws := rfl
@[simp] theorem State.skip_script : s.skip.script = s.script := rfl

/-! ### `push` -/

@[simp] theorem State.push_mem (v : Word) : (s.push v).mem = s.mem := rfl
@[simp] theorem State.push_V (v : Word) : (s.push v).V = s.V := rfl
@[simp] theorem State.push_I (v : Word) : (s.push v).I = s.I := rfl
@[simp] theorem State.push_PC (v : Word) : (s.push v).PC = s.PC := rfl
@[simp] theorem State.push_stack (v : Word) : (s.push v).stack = s.stack.set (stackIndex s.SP.val).val v := rfl
@[simp] theorem State.push_SP (v : Word) : (s.push v).SP = s.spAfterPush := rfl
@[simp] theorem State.push_DT (v : Word) : (s.push v).DT = s.DT := rfl
@[simp] theorem State.push_ST (v : Word) : (s.push v).ST = s.ST := rfl
@[simp] theorem State.push_fb (v : Word) : (s.push v).fb = s.fb := rfl
@[simp] theorem State.push_keys (v : Word) : (s.push v).keys = s.keys := rfl
@[simp] theorem State.push_prevKeys (v : Word) : (s.push v).prevKeys = s.prevKeys := rfl
@[simp] theorem State.push_waiting (v : Word) : (s.push v).waiting = s.waiting := rfl
@[simp] theorem State.push_fault (v : Word) : (s.push v).fault = s.fault := rfl
@[simp] theorem State.push_loadClosed (v : Word) : (s.push v).loadClosed = s.loadClosed := rfl
@[simp] theorem State.push_config (v : Word) : (s.push v).config = s.config := rfl
@[simp] theorem State.push_rnd (v : Word) : (s.push v).rnd = s.rnd := rfl
@[simp] theorem State.push_draws (v : Word) : (s.push v).draws = s.draws := rfl
@[simp] theorem State.push_script (v : Word) : (s.push v).script = s.script := rfl

/-! ### `pop` -/

@[simp] theorem State.pop_mem : s.pop.mem = s.mem := rfl
@[simp] theorem State.pop_V : s.pop.V = s.V := rfl
@[simp] theorem State.pop_I : s.pop.I = s.I := rfl
@[simp] theorem State.pop_PC : s.pop.PC = s.PC := rfl
@[simp] theorem State.pop_stack : s.pop.stack = s.stack := rfl
@[simp] theorem State.pop_SP : s.pop.SP = s.spAfterPop := rfl
@[simp] theorem State.pop_DT : s.pop.DT = s.DT := rfl
@[simp] theorem State.pop_ST : s.pop.ST = s.ST := rfl
@[simp] theorem State.pop_fb : s.pop.fb = s.fb := rfl
@[simp] theorem State.pop_keys : s.pop.keys = s.keys := rfl
@[simp] theorem State.pop_prevKeys : s.pop.prevKeys = s.prevKeys := rfl
@[simp] theorem State.pop_waiting : s.pop.waiting = s.waiting := rfl
@[simp] theorem State.pop_fault : s.pop.fault = s.fault := rfl
@[simp] theorem State.pop_loadClosed : s.pop.loadClosed = s.loadClosed := rfl
@[simp] theorem State.pop_config : s.pop.config = s.config := rfl
@[simp] theorem State.pop_rnd : s.pop.rnd = s.rnd := rfl
@[simp] theorem State.pop_draws : s.pop.draws = s.draws := rfl
@[simp] theorem State.pop_script : s.pop.script = s.script := rfl

/-! ### `raiseFault` -/

@[simp] theorem State.raiseFault_mem (c : FaultCause) (i o : Word) : (s.raiseFault c i o).mem = s.mem := rfl
@[simp] theorem State.raiseFault_V (c : FaultCause) (i o : Word) : (s.raiseFault c i o).V = s.V := rfl
@[simp] theorem State.raiseFault_I (c : FaultCause) (i o : Word) : (s.raiseFault c i o).I = s.I := rfl
@[simp] theorem State.raiseFault_PC (c : FaultCause) (i o : Word) : (s.raiseFault c i o).PC = s.PC := rfl
@[simp] theorem State.raiseFault_stack (c : FaultCause) (i o : Word) : (s.raiseFault c i o).stack = s.stack := rfl
@[simp] theorem State.raiseFault_SP (c : FaultCause) (i o : Word) : (s.raiseFault c i o).SP = s.SP := rfl
@[simp] theorem State.raiseFault_DT (c : FaultCause) (i o : Word) : (s.raiseFault c i o).DT = s.DT := rfl
@[simp] theorem State.raiseFault_ST (c : FaultCause) (i o : Word) : (s.raiseFault c i o).ST = s.ST := rfl
@[simp] theorem State.raiseFault_fb (c : FaultCause) (i o : Word) : (s.raiseFault c i o).fb = s.fb := rfl
@[simp] theorem State.raiseFault_keys (c : FaultCause) (i o : Word) : (s.raiseFault c i o).keys = s.keys := rfl
@[simp] theorem State.raiseFault_prevKeys (c : FaultCause) (i o : Word) : (s.raiseFault c i o).prevKeys = s.prevKeys := rfl
@[simp] theorem State.raiseFault_waiting (c : FaultCause) (i o : Word) : (s.raiseFault c i o).waiting = s.waiting := rfl
@[simp] theorem State.raiseFault_fault (c : FaultCause) (i o : Word) : (s.raiseFault c i o).fault = ⟨c, s.PC, o, i⟩ := rfl
@[simp] theorem State.raiseFault_loadClosed (c : FaultCause) (i o : Word) : (s.raiseFault c i o).loadClosed = s.loadClosed := rfl
@[simp] theorem State.raiseFault_config (c : FaultCause) (i o : Word) : (s.raiseFault c i o).config = s.config := rfl
@[simp] theorem State.raiseFault_rnd (c : FaultCause) (i o : Word) : (s.raiseFault c i o).rnd = s.rnd := rfl
@[simp] theorem State.raiseFault_draws (c : FaultCause) (i o : Word) : (s.raiseFault c i o).draws = s.draws := rfl
@[simp] theorem State.raiseFault_script (c : FaultCause) (i o : Word) : (s.raiseFault c i o).script = s.script := rfl

/-! ### `beginCycle` -/

@[simp] theorem State.beginCycle_mem (r : Byte) : (s.beginCycle r).mem = s.mem := rfl
@[simp] theorem State.beginCycle_V (r : Byte) : (s.beginCycle r).V = s.V := rfl
@[simp] theorem State.beginCycle_I (r : Byte) : (s.beginCycle r).I = s.I := rfl
@[simp] theorem State.beginCycle_PC (r : Byte) : (s.beginCycle r).PC = s.PC := rfl
@[simp] theorem State.beginCycle_stack (r : Byte) : (s.beginCycle r).stack = s.stack := rfl
@[simp] theorem State.beginCycle_SP (r : Byte) : (s.beginCycle r).SP = s.SP := rfl
@[simp] theorem State.beginCycle_DT (r : Byte) : (s.beginCycle r).DT = s.DT := rfl
@[simp] theorem State.beginCycle_ST (r : Byte) : (s.beginCycle r).ST = s.ST := rfl
@[simp] theorem State.beginCycle_fb (r : Byte) : (s.beginCycle r).fb = s.fb := rfl
@[simp] theorem State.beginCycle_keys (r : Byte) : (s.beginCycle r).keys = s.keys := rfl
@[simp] theorem State.beginCycle_prevKeys (r : Byte) : (s.beginCycle r).prevKeys = s.prevKeys := rfl
@[simp] theorem State.beginCycle_waiting (r : Byte) : (s.beginCycle r).waiting = s.waiting := rfl
@[simp] theorem State.beginCycle_fault (r : Byte) : (s.beginCycle r).fault = s.fault := rfl
@[simp] theorem State.beginCycle_loadClosed (r : Byte) : (s.beginCycle r).loadClosed = true := rfl
@[simp] theorem State.beginCycle_config (r : Byte) : (s.beginCycle r).config = s.config := rfl
@[simp] theorem State.beginCycle_rnd (r : Byte) : (s.beginCycle r).rnd = r := rfl
@[simp] theorem State.beginCycle_draws (r : Byte) : (s.beginCycle r).draws = s.draws := rfl
@[simp] theorem State.beginCycle_script (r : Byte) : (s.beginCycle r).script = s.script := rfl

/-! ### `skipIf` -/

@[simp] theorem State.skipIf_mem (c : Bool) : (s.skipIf c).mem = s.mem := by cases c <;> rfl
@[simp] theorem State.skipIf_V (c : Bool) : (s.skipIf c).V = s.V := by cases c <;> rfl
@[simp] theorem State.skipIf_I (c : Bool) : (s.skipIf c).I = s.I := by cases c <;> rfl
@[simp] theorem State.skipIf_PC (c : Bool) : (s.skipIf c).PC = if c then s.PC + 4 else s.PC + 2 := by
  cases c <;> rfl
@[simp] theorem State.skipIf_stack (c : Bool) : (s.skipIf c).stack = s.stack := by cases c <;> rfl
@[simp] theorem State.skipIf_SP (c : Bool) : (s.skipIf c).SP = s.SP := by cases c <;> rfl
@[simp] theorem State.skipIf_DT (c : Bool) : (s.skipIf c).DT = s.DT := by cases c <;> rfl
@[simp] theorem State.skipIf_ST (c : Bool) : (s.skipIf c).ST = s.ST := by cases c <;> rfl
@[simp] theorem State.skipIf_fb (c : Bool) : (s.skipIf c).fb = s.fb := by cases c <;> rfl
@[simp] theorem State.skipIf_keys (c : Bool) : (s.skipIf c).keys = s.keys := by cases c <;> rfl
@[simp] theorem State.skipIf_prevKeys (c : Bool) : (s.skipIf c).prevKeys = s.prevKeys := by cases c <;> rfl
@[simp] theorem State.skipIf_waiting (c : Bool) : (s.skipIf c).waiting = s.waiting := by cases c <;> rfl
@[simp] theorem State.skipIf_fault (c : Bool) : (s.skipIf c).fault = s.fault := by cases c <;> rfl
@[simp] theorem State.skipIf_loadClosed (c : Bool) : (s.skipIf c).loadClosed = s.loadClosed := by cases c <;> rfl
@[simp] theorem State.skipIf_config (c : Bool) : (s.skipIf c).config = s.config := by cases c <;> rfl
@[simp] theorem State.skipIf_rnd (c : Bool) : (s.skipIf c).rnd = s.rnd := by cases c <;> rfl
@[simp] theorem State.skipIf_draws (c : Bool) : (s.skipIf c).draws = s.draws := by cases c <;> rfl
@[simp] theorem State.skipIf_script (c : Bool) : (s.skipIf c).script = s.script := by cases c <;> rfl

/-! ### The parameters and the host's data survive a reset -/

@[simp] theorem State.afterReset_config : s.afterReset.config = s.config := rfl
@[simp] theorem State.afterReset_script : s.afterReset.script = s.script := rfl
@[simp] theorem State.afterReset_draws : s.afterReset.draws = s.draws := rfl
@[simp] theorem State.afterReset_rnd : s.afterReset.rnd = s.rnd := rfl

/-! ### Reads through an update -/

@[simp] theorem State.getV_setV (x r : RegIndex) (b : Byte) :
    (s.setV x b).getV r = if r = x then b else s.getV r := by
  simp only [State.getV, State.setV, Vector.getElem_set, Fin.ext_iff, eq_comm]

@[simp] theorem State.getV_advance (r : RegIndex) : s.advance.getV r = s.getV r := rfl
@[simp] theorem State.getV_skipIf (c : Bool) (r : RegIndex) : (s.skipIf c).getV r = s.getV r := by cases c <;> rfl
@[simp] theorem State.getV_writeBytes (a : Nat) (bs : List Byte) (r : RegIndex) :
    (s.writeBytes a bs).getV r = s.getV r := rfl
@[simp] theorem State.getV_raiseFault (c : FaultCause) (i o : Word) (r : RegIndex) :
    (s.raiseFault c i o).getV r = s.getV r := rfl
@[simp] theorem State.readByte_setV (x : RegIndex) (b : Byte) (a : Nat) : (s.setV x b).readByte a = s.readByte a := rfl
@[simp] theorem State.readByte_advance (a : Nat) : s.advance.readByte a = s.readByte a := rfl
@[simp] theorem State.readByte_skipIf (c : Bool) (a : Nat) : (s.skipIf c).readByte a = s.readByte a := by cases c <;> rfl
@[simp] theorem State.readByte_push (v : Word) (a : Nat) : (s.push v).readByte a = s.readByte a := rfl
@[simp] theorem State.readByte_pop (a : Nat) : s.pop.readByte a = s.readByte a := rfl
@[simp] theorem State.readByte_raiseFault (c : FaultCause) (i o : Word) (a : Nat) :
    (s.raiseFault c i o).readByte a = s.readByte a := rfl
@[simp] theorem State.readByte_beginCycle (r : Byte) (a : Nat) : (s.beginCycle r).readByte a = s.readByte a := rfl
@[simp] theorem State.fetch_beginCycle (r : Byte) : (s.beginCycle r).fetch = s.fetch := rfl
@[simp] theorem State.halted_beginCycle (r : Byte) : (s.beginCycle r).halted = s.halted := rfl
@[simp] theorem State.halted_setV (x : RegIndex) (b : Byte) : (s.setV x b).halted = s.halted := rfl
@[simp] theorem State.halted_advance : s.advance.halted = s.halted := rfl
@[simp] theorem State.halted_skipIf (c : Bool) : (s.skipIf c).halted = s.halted := by cases c <;> rfl

theorem State.readByte_congr {t : State} (hm : t.mem = s.mem) (hc : t.config = s.config) (a : Nat) :
    t.readByte a = s.readByte a := by simp only [State.readByte, hm, hc]

end Sys2Proof.Machine
end

