-- ==== Sys2Proof/Laws/Memory.lean ====
section
/-!
SUPPORT. The laws of memory (spec/20_memory.md R61, R62, R69): a read after a write gives the value written, a write leaves
every other address alone, and every operation keeps the canonical form.
-/

namespace Sys2Proof.Machine

/-! ### Reads and writes -/

theorem Memory.lookup_insert (m : Memory) (a b : Nat) (v : Byte) :
    Memory.lookup (Memory.insert m a v) b = if b = a then some v else Memory.lookup m b := by
  induction m with
  | nil => simp only [Memory.insert, Memory.lookup, eq_comm]
  | cons c m ih =>
    obtain ⟨k, w⟩ := c
    simp only [Memory.insert]
    split_ifs with h1 h2 h3 <;> simp only [Memory.lookup, ih] <;> split_ifs <;> first | rfl | omega

/-- No entry lies below a bound that the list rises from. -/
theorem Memory.lookup_eq_none_of_risingFrom {m : Memory} {lo a : Nat} (h : Memory.risingFrom lo m = true) (ha : a < lo) :
    Memory.lookup m a = none := by
  induction m generalizing lo with
  | nil => rfl
  | cons c m ih =>
    obtain ⟨k, w⟩ := c
    simp only [Memory.risingFrom, Bool.and_eq_true, decide_eq_true_eq] at h
    simp only [Memory.lookup, if_neg (show k ≠ a by omega)]
    exact ih h.2 (by omega)

theorem Memory.lookup_erase {m : Memory} {lo : Nat} (h : Memory.risingFrom lo m = true) (a b : Nat) :
    Memory.lookup (Memory.erase m a) b = if b = a then none else Memory.lookup m b := by
  induction m generalizing lo with
  | nil => simp [Memory.erase, Memory.lookup]
  | cons c m ih =>
    obtain ⟨k, w⟩ := c
    simp only [Memory.risingFrom, Bool.and_eq_true, decide_eq_true_eq] at h
    simp only [Memory.erase]
    split_ifs with h1 h2 h2
    · exact Memory.lookup_eq_none_of_risingFrom h.2 (by omega)
    · simp only [Memory.lookup, if_neg (show k ≠ b by omega)]
    · simp only [Memory.lookup, if_neg (show k ≠ b by omega), ih h.2, if_pos h2]
    · simp only [Memory.lookup, ih h.2, if_neg h2]

/-- R61, R62, R69: a read gives the last value written to its address, and else what it gave before. -/
theorem Memory.read_write {font : Font} {m : Memory} (h : Memory.risingFrom 0 m = true) (a b : Nat) (v : Byte) :
    Memory.read font (Memory.write font m a v) b = if b = a then v else Memory.read font m b := by
  simp only [Memory.read, Memory.write]
  split_ifs with hv hb hb
  · simp [Memory.lookup_erase h, hb, hv]
  · simp [Memory.lookup_erase h, hb]
  · simp [Memory.lookup_insert, hb]
  · simp [Memory.lookup_insert, hb]

/-! ### The canonical form -/

theorem Memory.risingFrom_mono {m : Memory} {lo lo' : Nat} (h : Memory.risingFrom lo' m = true) (hl : lo ≤ lo') :
    Memory.risingFrom lo m = true := by
  cases m with
  | nil => rfl
  | cons c m =>
    simp only [Memory.risingFrom, Bool.and_eq_true, decide_eq_true_eq] at h ⊢
    exact ⟨by omega, h.2⟩

theorem Memory.risingFrom_insert {m : Memory} {lo a : Nat} {v : Byte} (h : Memory.risingFrom lo m = true) (ha : lo ≤ a) :
    Memory.risingFrom lo (Memory.insert m a v) = true := by
  induction m generalizing lo with
  | nil => simp [Memory.insert, Memory.risingFrom, ha]
  | cons c m ih =>
    obtain ⟨k, w⟩ := c
    simp only [Memory.risingFrom, Bool.and_eq_true, decide_eq_true_eq] at h
    simp only [Memory.insert]
    split_ifs with h1 h2
    · simp [Memory.risingFrom, h.1, ih h.2 (by omega)]
    · subst h2; simp [Memory.risingFrom, h.1, h.2]
    · simp [Memory.risingFrom, ha, h.2]; omega

theorem Memory.risingFrom_erase {m : Memory} {lo a : Nat} (h : Memory.risingFrom lo m = true) :
    Memory.risingFrom lo (Memory.erase m a) = true := by
  induction m generalizing lo with
  | nil => rfl
  | cons c m ih =>
    obtain ⟨k, w⟩ := c
    simp only [Memory.risingFrom, Bool.and_eq_true, decide_eq_true_eq] at h
    simp only [Memory.erase]
    split_ifs with h1
    · exact Memory.risingFrom_mono h.2 (by omega)
    · simp [Memory.risingFrom, h.1, ih h.2]

theorem Memory.mem_insert {m : Memory} {a : Nat} {v : Byte} {c : Host.Cell} (h : c ∈ Memory.insert m a v) :
    c = (a, v) ∨ c ∈ m := by
  induction m with
  | nil => simpa [Memory.insert] using h
  | cons d m ih =>
    obtain ⟨k, w⟩ := d
    simp only [Memory.insert] at h
    split_ifs at h <;> simp only [List.mem_cons] at h ⊢
    · rcases h with h | h
      · exact .inr (.inl h)
      · exact (ih h).imp_right .inr
    · tauto
    · tauto

theorem Memory.mem_of_mem_erase {m : Memory} {a : Nat} {c : Host.Cell} (h : c ∈ Memory.erase m a) : c ∈ m := by
  induction m with
  | nil => simp [Memory.erase] at h
  | cons d m ih =>
    obtain ⟨k, w⟩ := d
    simp only [Memory.erase] at h
    split_ifs at h
    · exact List.mem_cons_of_mem _ h
    · simp only [List.mem_cons] at h ⊢
      exact h.imp_right ih

theorem Memory.wf_iff {font : Font} {m : Memory} :
    Memory.wf font m = true ↔
      Memory.risingFrom 0 m = true ∧ ∀ c ∈ m, c.1 < 0x1000 ∧ c.2 ≠ Memory.background font c.1 := by
  simp [Memory.wf]

theorem Memory.wf_nil (font : Font) : Memory.wf font [] = true := rfl

/-- A write to an address of memory keeps the canonical form. -/
theorem Memory.wf_write {font : Font} {m : Memory} {a : Nat} {v : Byte} (h : Memory.wf font m = true) (ha : a < 0x1000) :
    Memory.wf font (Memory.write font m a v) = true := by
  rw [Memory.wf_iff] at h ⊢
  simp only [Memory.write]
  split_ifs with hv
  · exact ⟨Memory.risingFrom_erase h.1, fun c hc => h.2 c (Memory.mem_of_mem_erase hc)⟩
  · refine ⟨Memory.risingFrom_insert h.1 (Nat.zero_le a), fun c hc => ?_⟩
    rcases Memory.mem_insert hc with rfl | hc
    · exact ⟨ha, hv⟩
    · exact h.2 c hc

/-- Writing bytes at rising addresses inside memory keeps the canonical form. -/
theorem Memory.wf_writeAll {font : Font} {bs : List Byte} :
    ∀ {m : Memory} {a : Nat}, Memory.wf font m = true → a + bs.length ≤ 0x1000 →
      Memory.wf font (Memory.writeAll font m a bs) = true := by
  induction bs with
  | nil => intro m a h _; exact h
  | cons b bs ih =>
    intro m a h ha
    simp only [List.length_cons] at ha
    exact ih (Memory.wf_write h (by omega)) (by omega)

theorem Memory.risingFrom_write {font : Font} {m : Memory} (h : Memory.risingFrom 0 m = true) (a : Nat) (v : Byte) :
    Memory.risingFrom 0 (Memory.write font m a v) = true := by
  simp only [Memory.write]
  split_ifs
  · exact Memory.risingFrom_erase h
  · exact Memory.risingFrom_insert h (Nat.zero_le a)

/-- What bytes read after several were written at rising addresses from `a`. -/
theorem Memory.read_writeAll {font : Font} {bs : List Byte} :
    ∀ {m : Memory} {a : Nat}, Memory.risingFrom 0 m = true → ∀ b,
      Memory.read font (Memory.writeAll font m a bs) b =
        if a ≤ b then (bs[b - a]?).getD (Memory.read font m b) else Memory.read font m b := by
  induction bs with
  | nil => intro m a _ b; simp [Memory.writeAll]
  | cons v bs ih =>
    intro m a h b
    simp only [Memory.writeAll, ih (Memory.risingFrom_write h a v), Memory.read_write h]
    rcases Nat.lt_trichotomy b a with hb | rfl | hb
    · simp [show ¬ a ≤ b by omega, show ¬ a + 1 ≤ b by omega, show b ≠ a by omega]
    · simp
    · obtain ⟨k, rfl⟩ : ∃ k, b = a + 1 + k := ⟨b - (a + 1), by omega⟩
      simp [show a ≤ a + 1 + k by omega, show a + 1 + k - a = k + 1 by omega, show a + 1 + k ≠ a by omega]

/-! ### The same laws on states -/

theorem MemoryCanonical.rising {s : State} (h : MemoryCanonical s) : Memory.risingFrom 0 s.mem = true :=
  (Memory.wf_iff.mp h).1

/-- `writeBytes`, in full: the bytes written read back, every other byte reads as before (R62, R69). -/
theorem State.readByte_writeBytes {s : State} (h : MemoryCanonical s) (a : Nat) (bs : List Byte) (b : Nat) :
    (s.writeBytes a bs).readByte b = if a ≤ b then (bs[b - a]?).getD (s.readByte b) else s.readByte b :=
  Memory.read_writeAll h.rising b

theorem State.writeBytes_canonical {s : State} (h : MemoryCanonical s) {a : Nat} {bs : List Byte}
    (ha : a + bs.length ≤ 0x1000) : MemoryCanonical (s.writeBytes a bs) :=
  Memory.wf_writeAll h ha

/-- Memory right after reset lists nothing and is canonical. -/
theorem State.reset_canonical : MemoryCanonical State.reset := rfl

theorem State.resetWith_canonical (c : Config) : MemoryCanonical (State.resetWith c) := rfl

theorem State.afterReset_canonical (s : State) : MemoryCanonical s.afterReset := rfl

/-- R43: a byte right after reset. -/
theorem State.readByte_resetWith (c : Config) (a : Nat) :
    (State.resetWith c).readByte a = Memory.background c.font a := rfl

end Sys2Proof.Machine
end

