-- ==== Sys2Proof/Laws/Ops.lean ====
section
/-!
SUPPORT. What each shared operation of the machine does, once: the stack controller, the address check, the register lists,
the key search, the two register writes of 8XY4–8XYE, the timers, and the fetch.
-/

namespace Sys2Proof.Machine

/-! ### Faults -/

theorem State.halted_iff (s : State) : s.halted = true ↔ s.fault.cause ≠ .none := by simp [State.halted]

theorem State.not_halted_iff (s : State) : s.halted = false ↔ s.fault.cause = .none := by simp [State.halted]

theorem State.halted_raiseFault (s : State) {c : FaultCause} (h : c ≠ .none) (i o : Word) :
    (s.raiseFault c i o).halted = true := by simp [State.halted, h]

/-! ### The stack controller (R120) -/

theorem stackIndex_val (n : Nat) : (stackIndex n).val = n % 16 := rfl

theorem State.pushFaults_iff (s : State) :
    s.pushFaults = true ↔ s.config.stackPolicy = .fault ∧ s.SP.val = 16 := by simp [State.pushFaults]

theorem State.popFaults_iff (s : State) :
    s.popFaults = true ↔ s.config.stackPolicy = .fault ∧ s.SP.val = 0 := by simp [State.popFaults]

theorem State.spAfterPush_wrap {s : State} (h : s.config.stackPolicy = .wrap) :
    s.spAfterPush.val = (s.SP.val + 1) % 16 := by
  simp only [State.spAfterPush, h, Fin.val_ofNat]; omega

theorem State.spAfterPush_fault {s : State} (h : s.config.stackPolicy = .fault) (hs : s.SP.val < 16) :
    s.spAfterPush.val = s.SP.val + 1 := by
  simp only [State.spAfterPush, h, Fin.val_ofNat]; omega

theorem State.spAfterPop_wrap {s : State} (h : s.config.stackPolicy = .wrap) :
    s.spAfterPop.val = (s.SP.val + 15) % 16 := by
  simp only [State.spAfterPop, h, Fin.val_ofNat]; omega

theorem State.spAfterPop_fault {s : State} (h : s.config.stackPolicy = .fault) :
    s.spAfterPop.val = s.SP.val - 1 := by
  simp only [State.spAfterPop, h, Fin.val_ofNat]
  have := s.SP.isLt
  omega

theorem State.stack_push (s : State) (v : Word) (k : Fin 16) :
    (s.push v).stack[k.val] = if k.val = s.SP.val % 16 then v else s.stack[k.val] := by
  simp only [State.push_stack, Vector.getElem_set, stackIndex_val, eq_comm]

/-! ### Data addresses (R63) -/

theorem State.outOfRange_iff (s : State) (n : Nat) :
    s.outOfRange n = true ↔ 0 < n ∧ 0x1000 < s.I.toNat + n := by
  rw [State.outOfRange, Bool.and_eq_true, decide_eq_true_eq, decide_eq_true_eq, State.dataAddr]
  exact and_congr_right fun _ => by omega

theorem State.outOfRange_eq_false_iff (s : State) (n : Nat) :
    s.outOfRange n = false ↔ n = 0 ∨ s.I.toNat + n ≤ 0x1000 := by
  rw [← Bool.not_eq_true, State.outOfRange_iff]; omega

theorem State.lowestOutOfRange_toNat (s : State) : s.lowestOutOfRange.toNat = max s.I.toNat 0x1000 := by
  simp only [State.lowestOutOfRange]
  split_ifs
  · simp; omega
  · omega

/-! ### Register lists (R174, R175) -/

theorem State.regsUpTo_length (s : State) (x : RegIndex) : (s.regsUpTo x).length = x.val + 1 := by
  simp [State.regsUpTo]

theorem State.regsUpTo_get (s : State) (x : RegIndex) (k : Fin 16) :
    (s.regsUpTo x)[k.val]? = if k.val ≤ x.val then some (s.getV k) else none := by
  simp only [State.regsUpTo, State.getV, List.getElem?_take, Order.lt_add_one_iff]
  split_ifs <;> simp

theorem State.loadedRegs_get (s : State) (x r : RegIndex) :
    (s.loadedRegs x)[r.val] = if r.val ≤ x.val then s.readByte (s.I.toNat + r.val) else s.getV r := by
  simp [State.loadedRegs, State.dataAddr]

theorem State.indexPast_toNat (s : State) (x : RegIndex) :
    (s.indexPast x).toNat = (s.I.toNat + (x.val + 1)) % 0x10000 := by
  simp [State.indexPast, BitVec.toNat_add]

/-! ### Keys (R210, R213) -/

theorem keyIndex?_some {b : Byte} (h : b.toNat < 16) : keyIndex? b = some ⟨b.toNat, h⟩ := dif_pos h

theorem keyIndex?_none {b : Byte} (h : 16 ≤ b.toNat) : keyIndex? b = none := dif_neg (by omega)

theorem firstNewPress_some_iff (prev now : Keys) (k : KeyIndex) :
    firstNewPress prev now = some k ↔
      (prev[k.val] = false ∧ now[k.val] = true) ∧ ∀ j : Fin 16, j < k → ¬ (prev[j.val] = false ∧ now[j.val] = true) := by
  simp only [firstNewPress, List.find?_eq_some_iff_getElem, List.getElem_finRange, List.length_finRange,
    Bool.and_eq_true, Bool.not_eq_true', Fin.cast_mk]
  constructor
  · rintro ⟨hk, i, hi, rfl, hlow⟩
    refine ⟨hk, fun j hj hn => ?_⟩
    have := hlow j.val hj
    simp [hn.1, hn.2] at this
  · rintro ⟨hk, hlow⟩
    refine ⟨hk, k.val, k.isLt, rfl, fun j hj => ?_⟩
    have := hlow ⟨j, by omega⟩ hj
    revert this
    cases prev[j] <;> cases now[j] <;> simp

theorem firstNewPress_none_iff (prev now : Keys) :
    firstNewPress prev now = none ↔ ∀ j : Fin 16, ¬ (prev[j.val] = false ∧ now[j.val] = true) := by
  simp only [firstNewPress, List.find?_eq_none, List.mem_finRange, forall_const]
  refine forall_congr' fun j => ?_
  cases prev[j.val] <;> cases now[j.val] <;> simp

/-! ### Timers (R241) -/

theorem countDown_toNat (t : Byte) : (countDown t).toNat = t.toNat - 1 := by
  simp only [countDown]
  split_ifs with h
  · simp [h]
  · have : t.toNat ≠ 0 := fun h0 => h (BitVec.eq_of_toNat_eq (by simpa using h0))
    rw [BitVec.toNat_sub]
    have := t.isLt
    simp
    omega

/-! ### The two writes of 8XY4–8XYE (R141): what they leave alone -/

theorem resultThenFlag_frame (x y : RegIndex) (res flg : Byte → Byte → Byte) (s : State) :
    ∃ v : Vector Byte 16, resultThenFlag x y res flg s = { s with V := v } := by
  unfold resultThenFlag
  split <;> exact ⟨_, rfl⟩

theorem flagThenResult_frame (x y : RegIndex) (flg res : Byte → Byte → Byte) (s : State) :
    ∃ v : Vector Byte 16, flagThenResult x y flg res s = { s with V := v } := by
  unfold flagThenResult
  split <;> exact ⟨_, rfl⟩

theorem resultThenFlag_getV_sequential {x y : RegIndex} {res flg : Byte → Byte → Byte} {s : State}
    (h : s.config.vfAlias = .sequential) (r : RegIndex) :
    (resultThenFlag x y res flg s).getV r =
      if r = VF then
        flg (res (s.getV x) (s.getV y)) (if y = x then res (s.getV x) (s.getV y) else s.getV y)
      else if r = x then res (s.getV x) (s.getV y) else s.getV r := by
  simp [resultThenFlag, h]

theorem resultThenFlag_getV_latched {x y : RegIndex} {res flg : Byte → Byte → Byte} {s : State}
    (h : s.config.vfAlias = .latched) (r : RegIndex) :
    (resultThenFlag x y res flg s).getV r =
      if r = VF then flg (res (s.getV x) (s.getV y)) (s.getV y)
      else if r = x then res (s.getV x) (s.getV y) else s.getV r := by
  simp [resultThenFlag, h]

/-- With X ≠ Y both settings write the same (R141, R148). -/
theorem resultThenFlag_getV_of_ne {x y : RegIndex} (h : x ≠ y) (res flg : Byte → Byte → Byte) (s : State) (r : RegIndex) :
    (resultThenFlag x y res flg s).getV r =
      if r = VF then flg (res (s.getV x) (s.getV y)) (s.getV y)
      else if r = x then res (s.getV x) (s.getV y) else s.getV r := by
  cases hc : s.config.vfAlias
  · simp [resultThenFlag_getV_sequential hc, Ne.symm h]
  · exact resultThenFlag_getV_latched hc r

theorem flagThenResult_getV_sequential {x y : RegIndex} {flg res : Byte → Byte → Byte} {s : State}
    (h : s.config.vfAlias = .sequential) (r : RegIndex) :
    (flagThenResult x y flg res s).getV r =
      if r = x then
        res (if x = VF then flg (s.getV x) (s.getV y) else s.getV x)
          (if y = VF then flg (s.getV x) (s.getV y) else s.getV y)
      else if r = VF then flg (s.getV x) (s.getV y) else s.getV r := by
  simp [flagThenResult, h]

theorem flagThenResult_getV_latched {x y : RegIndex} {flg res : Byte → Byte → Byte} {s : State}
    (h : s.config.vfAlias = .latched) (r : RegIndex) :
    (flagThenResult x y flg res s).getV r =
      if r = VF then flg (s.getV x) (s.getV y)
      else if r = x then res (s.getV x) (s.getV y) else s.getV r := by
  simp [flagThenResult, h]

/-- With X and Y both other than F both settings write the same (R141, R149–R152). -/
theorem flagThenResult_getV_of_ne {x y : RegIndex} (hx : x ≠ VF) (hy : y ≠ VF) (flg res : Byte → Byte → Byte) (s : State)
    (r : RegIndex) :
    (flagThenResult x y flg res s).getV r =
      if r = VF then flg (s.getV x) (s.getV y)
      else if r = x then res (s.getV x) (s.getV y) else s.getV r := by
  cases hc : s.config.vfAlias
  · rw [flagThenResult_getV_sequential hc, if_neg hx, if_neg hy]
    by_cases h : r = VF
    · subst h; rw [if_neg (Ne.symm hx), if_pos rfl, if_pos rfl]
    · rw [if_neg h, if_neg h]
  · exact flagThenResult_getV_latched hc r

/-- A register that is neither `V[X]` nor `VF` is kept, by either order of the writes. -/
theorem resultThenFlag_getV_other {x r : RegIndex} (hx : r ≠ x) (hf : r ≠ VF) (y : RegIndex) (res flg : Byte → Byte → Byte)
    (s : State) : (resultThenFlag x y res flg s).getV r = s.getV r := by
  cases hc : s.config.vfAlias
  · simp [resultThenFlag_getV_sequential hc, hx, hf]
  · simp [resultThenFlag_getV_latched hc, hx, hf]

theorem flagThenResult_getV_other {x r : RegIndex} (hx : r ≠ x) (hf : r ≠ VF) (y : RegIndex) (flg res : Byte → Byte → Byte)
    (s : State) : (flagThenResult x y flg res s).getV r = s.getV r := by
  cases hc : s.config.vfAlias
  · simp [flagThenResult_getV_sequential hc, hx, hf]
  · simp [flagThenResult_getV_latched hc, hx, hf]

/-! ### Fetch (R101) -/

theorem State.fetch_eq_none_iff (s : State) : s.fetch = none ↔ 0x0FFF ≤ s.PC.toNat := by
  unfold State.fetch
  split_ifs <;> simp <;> omega

theorem State.fetch_of_le {s : State} (h : s.PC.toNat ≤ 0x0FFE) :
    s.fetch = some (wordOfBytes (s.readByte s.PC.toNat) (s.readByte (s.PC.toNat + 1))) :=
  if_neg (by omega)

theorem State.fetch_congr {s t : State} (hp : t.PC = s.PC) (hm : ∀ a, t.readByte a = s.readByte a) :
    t.fetch = s.fetch := by
  simp only [State.fetch, hp, hm]

/-! ### CYCLE (R109) -/

/-- A cycle of a halted core does nothing; any other is the fetch's fault, the decoder's fault, or the execute step. -/
theorem cycle_cases (rnd : Byte) (s : State) :
    (s.halted = true ∧ cycle rnd s = .next s) ∨
    (s.halted = false ∧ 0x0FFF ≤ s.PC.toNat ∧
      cycle rnd s = .next ((s.beginCycle rnd).raiseFault .fetchRange s.PC 0)) ∨
    (∃ op, s.halted = false ∧ s.PC.toNat ≤ 0x0FFE ∧ s.fetch = some op ∧ decodeWord op = none ∧
      cycle rnd s = .next ((s.beginCycle rnd).raiseFault .illegalInstruction op op)) ∨
    (∃ op i, s.halted = false ∧ s.PC.toNat ≤ 0x0FFE ∧ s.fetch = some op ∧ decodeWord op = some i ∧
      cycle rnd s = exec i (s.beginCycle rnd)) := by
  unfold cycle
  cases hh : s.halted
  · simp only [Bool.false_eq_true, if_false, State.fetch_beginCycle, State.beginCycle_PC]
    cases hf : s.fetch with
    | none => exact .inr (.inl ⟨trivial, (s.fetch_eq_none_iff).mp hf, rfl⟩)
    | some op =>
      have hp : s.PC.toNat ≤ 0x0FFE := by
        by_contra hc
        rw [(s.fetch_eq_none_iff).mpr (by omega)] at hf
        cases hf
      cases hd : decodeWord op with
      | none => exact .inr (.inr (.inl ⟨op, trivial, hp, rfl, hd, by simp [hd]⟩))
      | some i => exact .inr (.inr (.inr ⟨op, i, trivial, hp, rfl, hd, by simp [hd]⟩))
  · exact .inl ⟨rfl, by simp⟩

end Sys2Proof.Machine
end

