-- ==== Sys2Proof/Laws/Draw.lean ====
section
/-!
SUPPORT. The laws of the framebuffer and of drawing a list of cells (spec/44_display.md R191).
-/

namespace Sys2Proof.Machine

@[simp] theorem Framebuffer.get_toggle (fb : Framebuffer) (a x : Fin 64) (b y : Fin 32) :
    (Framebuffer.toggle fb a b).get x y = if x = a ∧ y = b then !fb.get x y else fb.get x y := by
  have row : (Framebuffer.toggle fb a b)[y.val] =
      if b.val = y.val then fb[b.val].set a.val (!fb[b.val][a.val]) else fb[y.val] :=
    Vector.getElem_set _ _
  rw [Framebuffer.get, row]
  by_cases hy : b = y
  · subst hy
    rw [if_pos rfl, Vector.getElem_set]
    by_cases hx : a = x
    · subst hx; simp [Framebuffer.get]
    · rw [if_neg (fun h => hx (Fin.ext h)), if_neg (fun h => hx h.1.symm)]; rfl
  · rw [if_neg (fun h => hy (Fin.ext h)), if_neg (fun h => hy h.2.symm)]; rfl

@[simp] theorem Framebuffer.get_blank (x : Fin 64) (y : Fin 32) : Framebuffer.blank.get x y = false := by
  simp [Framebuffer.get, Framebuffer.blank]

theorem Framebuffer.ext_get {fb fb' : Framebuffer} (h : ∀ x y, fb.get x y = fb'.get x y) : fb = fb' := by
  apply Vector.ext
  intro y hy
  apply Vector.ext
  intro x hx
  exact h ⟨x, hx⟩ ⟨y, hy⟩

/-- Drawing a list of distinct cells toggles exactly those cells. -/
theorem drawCells_get {cs : List (Fin 64 × Fin 32)} (hn : cs.Nodup) (fb : Framebuffer) (x : Fin 64) (y : Fin 32) :
    (drawCells cs fb).1.get x y = (fb.get x y ^^ decide ((x, y) ∈ cs)) := by
  induction cs generalizing fb with
  | nil => simp [drawCells]
  | cons c cs ih =>
    obtain ⟨a, b⟩ := c
    rw [List.nodup_cons] at hn
    simp only [drawCells, ih hn.2, Framebuffer.get_toggle, List.mem_cons, Prod.mk.injEq]
    by_cases h : x = a ∧ y = b
    · obtain ⟨rfl, rfl⟩ := h
      simp [hn.1]
    · simp [h]

/-- Drawing a list of distinct cells hits when one of them was set. -/
theorem drawCells_hit {cs : List (Fin 64 × Fin 32)} (hn : cs.Nodup) (fb : Framebuffer) :
    (drawCells cs fb).2 = cs.any fun c => fb.get c.1 c.2 := by
  induction cs generalizing fb with
  | nil => rfl
  | cons c cs ih =>
    obtain ⟨a, b⟩ := c
    rw [List.nodup_cons] at hn
    simp only [drawCells, ih hn.2, List.any_cons]
    congr 1
    rw [Bool.eq_iff_iff, List.any_eq_true, List.any_eq_true]
    refine exists_congr fun c => and_congr_right fun hc => ?_
    have : ¬ (c.1 = a ∧ c.2 = b) := fun h => hn.1 (by rw [← h.1, ← h.2]; exact hc)
    rw [Framebuffer.get_toggle, if_neg this]

theorem mem_rowCells (x0 y0 : Byte) (r : Nat) (b : Byte) (x : Fin 64) (y : Fin 32) :
    (x, y) ∈ rowCells x0 y0 r b ↔
      ∃ c < 8, b.getLsbD (7 - c) = true ∧ x.val = (x0.toNat + c) % 64 ∧ y.val = (y0.toNat + r) % 32 := by
  simp only [rowCells, List.mem_filterMap, List.mem_range, Option.ite_none_right_eq_some, Option.some.injEq,
    Prod.mk.injEq, Fin.ext_iff, Fin.val_ofNat]
  refine exists_congr fun c => and_congr_right fun _ => and_congr_right fun _ => ?_
  constructor <;> rintro ⟨h1, h2⟩ <;> exact ⟨h1.symm, h2.symm⟩

/-- The cells of a sprite: column c of row r lies at `((x0 + c) mod 64, (y0 + r) mod 32)` (R191). -/
theorem mem_spriteCells (x0 y0 : Byte) (bs : List Byte) (r0 : Nat) (x : Fin 64) (y : Fin 32) :
    (x, y) ∈ spriteCells x0 y0 r0 bs ↔
      ∃ r b c, bs[r]? = some b ∧ c < 8 ∧ b.getLsbD (7 - c) = true ∧
        x.val = (x0.toNat + c) % 64 ∧ y.val = (y0.toNat + (r0 + r)) % 32 := by
  induction bs generalizing r0 with
  | nil => simp [spriteCells]
  | cons b bs ih =>
    rw [spriteCells, List.mem_append, mem_rowCells, ih]
    constructor
    · rintro (⟨c, hc, h⟩ | ⟨r, b', c, hb, h⟩)
      · exact ⟨0, b, c, rfl, hc, h⟩
      · refine ⟨r + 1, b', c, hb, ?_⟩
        rwa [show r0 + (r + 1) = r0 + 1 + r by omega]
    · rintro ⟨r, b', c, hb, h⟩
      cases r with
      | zero =>
        simp only [List.getElem?_cons_zero, Option.some.injEq] at hb
        subst hb
        exact .inl ⟨c, h.1, h.2⟩
      | succ r =>
        refine .inr ⟨r, b', c, hb, ?_⟩
        rwa [show r0 + 1 + r = r0 + (r + 1) by omega]

theorem State.spriteBytes_get (s : State) (n : RowCount) (r : Nat) :
    (s.spriteBytes n)[r]? = if r < n.val then some (s.readByte (s.I.toNat + r)) else none := by
  simp only [State.spriteBytes, State.dataAddr, List.getElem?_map]
  split_ifs with h
  · simp [List.getElem?_range h]
  · simp [List.getElem?_eq_none (show (List.range n.val).length ≤ r by simp; omega)]

theorem State.spriteBytes_length (s : State) (n : RowCount) : (s.spriteBytes n).length = n.val := by
  simp [State.spriteBytes]

end Sys2Proof.Machine
end

