-- ==== Sys2Proof/Laws/Encoding.lean ====
section
/-!
SUPPORT. The fields of the words the encoder builds (spec/30_encoding.md R81, R82), and a word as its own fields.
-/

namespace Sys2Proof

theorem nibble_toNat (n : Fin 16) : (nibble n).toNat = n.val := by
  simp only [nibble, BitVec.toNat_ofNat]; omega

theorem word_ext {a b : Word} (h : a.toNat = b.toNat) : a = b := BitVec.eq_of_toNat_eq h

/-! ### A field as a number -/

theorem fieldF_eq (op : Word) : fieldF op = op.toNat / 4096 % 16 := by
  simp [fieldF, BitVec.extractLsb'_toNat, Nat.shiftRight_eq_div_pow]

theorem fieldX_val (op : Word) : (fieldX op).val = op.toNat / 256 % 16 := by
  simp [fieldX, BitVec.extractLsb'_toNat, Nat.shiftRight_eq_div_pow]

theorem fieldY_val (op : Word) : (fieldY op).val = op.toNat / 16 % 16 := by
  simp [fieldY, BitVec.extractLsb'_toNat, Nat.shiftRight_eq_div_pow]

theorem fieldN_val (op : Word) : (fieldN op).val = op.toNat % 16 := by
  simp [fieldN, BitVec.extractLsb'_toNat]

theorem fieldNN_toNat (op : Word) : (fieldNN op).toNat = op.toNat % 256 := by
  simp [fieldNN, BitVec.extractLsb'_toNat]

theorem fieldNNN_toNat (op : Word) : (fieldNNN op).toNat = op.toNat % 4096 := by
  simp [fieldNNN, BitVec.extractLsb'_toNat]

/-! ### A word as a number -/

theorem append_toNat {m n : Nat} (a : BitVec m) (b : BitVec n) : (a ++ b).toNat = a.toNat * 2 ^ n + b.toNat := by
  rw [BitVec.toNat_append, Nat.shiftLeft_eq, Nat.mul_comm, ← Nat.two_pow_add_eq_or_of_lt b.isLt]

theorem wordA_toNat (f : BitVec 4) (nnn : Addr) : (wordA f nnn).toNat = f.toNat * 4096 + nnn.toNat :=
  append_toNat f nnn

theorem wordXK_toNat (f : BitVec 4) (x : RegIndex) (nn : Byte) :
    (wordXK f x nn).toNat = f.toNat * 4096 + x.val * 256 + nn.toNat := by
  have h : (wordXK f x nn).toNat = (f.toNat * 2 ^ 4 + (nibble x).toNat) * 2 ^ 8 + nn.toNat := by
    rw [← append_toNat, ← append_toNat]; rfl
  rw [h, nibble_toNat]; omega

theorem wordXYN_toNat (f : BitVec 4) (x y n : Fin 16) :
    (wordXYN f x y n).toNat = f.toNat * 4096 + x.val * 256 + y.val * 16 + n.val := by
  have h : (wordXYN f x y n).toNat =
      ((f.toNat * 2 ^ 4 + (nibble x).toNat) * 2 ^ 4 + (nibble y).toNat) * 2 ^ 4 + (nibble n).toNat := by
    rw [← append_toNat, ← append_toNat, ← append_toNat]; rfl
  rw [h, nibble_toNat, nibble_toNat, nibble_toNat]; omega

theorem wordOfBytes_toNat (hi lo : Byte) : (wordOfBytes hi lo).toNat = hi.toNat * 256 + lo.toNat :=
  append_toNat hi lo

/-! ### The fields of a built word -/

section
variable (f : BitVec 4) (x y n : Fin 16) (nn : Byte) (nnn : Addr)

@[simp] theorem fieldF_wordA : fieldF (wordA f nnn) = f.toNat := by
  rw [fieldF_eq, wordA_toNat]; omega
@[simp] theorem fieldNNN_wordA : fieldNNN (wordA f nnn) = nnn := by
  apply BitVec.eq_of_toNat_eq; rw [fieldNNN_toNat, wordA_toNat]; omega
@[simp] theorem fieldF_wordXK : fieldF (wordXK f x nn) = f.toNat := by
  rw [fieldF_eq, wordXK_toNat]; omega
@[simp] theorem fieldX_wordXK : fieldX (wordXK f x nn) = x := by
  apply Fin.ext; rw [fieldX_val, wordXK_toNat]; omega
@[simp] theorem fieldNN_wordXK : fieldNN (wordXK f x nn) = nn := by
  apply BitVec.eq_of_toNat_eq; rw [fieldNN_toNat, wordXK_toNat]; omega
@[simp] theorem fieldF_wordXYN : fieldF (wordXYN f x y n) = f.toNat := by
  rw [fieldF_eq, wordXYN_toNat]; omega
@[simp] theorem fieldX_wordXYN : fieldX (wordXYN f x y n) = x := by
  apply Fin.ext; rw [fieldX_val, wordXYN_toNat]; omega
@[simp] theorem fieldY_wordXYN : fieldY (wordXYN f x y n) = y := by
  apply Fin.ext; rw [fieldY_val, wordXYN_toNat]; omega
@[simp] theorem fieldN_wordXYN : fieldN (wordXYN f x y n) = n := by
  apply Fin.ext; rw [fieldN_val, wordXYN_toNat]; omega

end

/-! ### A word from its own fields -/

/-- F as the four bits it is. -/
def familyBits (op : Word) : BitVec 4 := BitVec.ofNat 4 (fieldF op)

theorem familyBits_toNat (op : Word) : (familyBits op).toNat = fieldF op := by
  rw [familyBits, BitVec.toNat_ofNat, fieldF_eq]; omega

theorem wordA_fields (op : Word) : wordA (familyBits op) (fieldNNN op) = op := by
  apply word_ext; rw [wordA_toNat, fieldNNN_toNat, familyBits_toNat, fieldF_eq]; omega

theorem wordXK_fields (op : Word) : wordXK (familyBits op) (fieldX op) (fieldNN op) = op := by
  apply word_ext; rw [wordXK_toNat, fieldX_val, fieldNN_toNat, familyBits_toNat, fieldF_eq]; omega

theorem wordXYN_fields (op : Word) : wordXYN (familyBits op) (fieldX op) (fieldY op) (fieldN op) = op := by
  apply word_ext; rw [wordXYN_toNat, fieldX_val, fieldY_val, fieldN_val, familyBits_toNat, fieldF_eq]; omega

theorem fieldF_lt (op : Word) : fieldF op < 16 := by rw [fieldF_eq]; omega

/-! ### Bytes of a word -/

@[simp] theorem wordOfBytes_high_low (op : Word) : wordOfBytes (highByte op) (lowByte op) = op := by
  apply word_ext
  rw [wordOfBytes_toNat]
  simp only [highByte, lowByte, BitVec.extractLsb'_toNat, Nat.shiftRight_eq_div_pow]
  omega

@[simp] theorem highByte_wordOfBytes (hi lo : Byte) : highByte (wordOfBytes hi lo) = hi := by
  apply BitVec.eq_of_toNat_eq
  simp only [highByte, BitVec.extractLsb'_toNat, Nat.shiftRight_eq_div_pow, wordOfBytes_toNat]
  omega

@[simp] theorem lowByte_wordOfBytes (hi lo : Byte) : lowByte (wordOfBytes hi lo) = lo := by
  apply BitVec.eq_of_toNat_eq
  simp only [lowByte, BitVec.extractLsb'_toNat, Nat.shiftRight_eq_div_pow, wordOfBytes_toNat]
  omega

/-- The two-byte decoder is the word decoder (R64, R80). -/
theorem decode_two_bytes (op : Word) (rest : List Byte) :
    decode (highByte op :: lowByte op :: rest) =
      match decodeWord op with
      | some i => .ok (i, rest)
      | none => .error (.illegal op) := by
  cases h : decodeWord op <;> simp [decode, h]

/-! ### The words of each format lie in a row of the opcode table -/

theorem and_append {m n : Nat} (a c : BitVec m) (b d : BitVec n) : (a ++ b) &&& (c ++ d) = (a &&& c) ++ (b &&& d) :=
  BitVec.and_append

theorem wordA_and_mask (f : BitVec 4) (nnn : Addr) : wordA f nnn &&& 0xF000 = wordA f 0 := by
  have h : wordA f nnn &&& (0xF#4 ++ 0x000#12) = (f &&& 0xF#4) ++ (nnn &&& 0x000#12) := and_append f _ nnn _
  rw [show (0xF000 : Word) = 0xF#4 ++ 0x000#12 from rfl, h]
  rw [show f &&& 0xF#4 = f from BitVec.and_allOnes, BitVec.and_zero]; rfl

theorem wordXK_and_mask_byte (f : BitVec 4) (x : RegIndex) (nn : Byte) : wordXK f x nn &&& 0xF0FF = wordXK f 0 nn := by
  have h : wordXK f x nn &&& ((0xF#4 ++ 0x0#4) ++ 0xFF#8) = ((f &&& 0xF#4) ++ (nibble x &&& 0x0#4)) ++ (nn &&& 0xFF#8) :=
    (and_append (f ++ nibble x) _ nn _).trans (by rw [and_append])
  rw [show (0xF0FF : Word) = (0xF#4 ++ 0x0#4) ++ 0xFF#8 from rfl, h]
  rw [show f &&& 0xF#4 = f from BitVec.and_allOnes, show nn &&& 0xFF#8 = nn from BitVec.and_allOnes, BitVec.and_zero]; rfl

theorem wordXK_and_mask_family (f : BitVec 4) (x : RegIndex) (nn : Byte) : wordXK f x nn &&& 0xF000 = wordA f 0 := by
  rw [← wordA_fields (wordXK f x nn), wordA_and_mask, familyBits, fieldF_wordXK, BitVec.ofNat_toNat, BitVec.setWidth_eq]

theorem wordXYN_and_mask_family (f : BitVec 4) (x y n : Fin 16) : wordXYN f x y n &&& 0xF000 = wordA f 0 := by
  rw [← wordA_fields (wordXYN f x y n), wordA_and_mask, familyBits, fieldF_wordXYN, BitVec.ofNat_toNat, BitVec.setWidth_eq]

theorem wordXYN_and_mask_nibble (f : BitVec 4) (x y n : Fin 16) : wordXYN f x y n &&& 0xF00F = wordXYN f 0 0 n := by
  have h : wordXYN f x y n &&& (((0xF#4 ++ 0x0#4) ++ 0x0#4) ++ 0xF#4) =
      (((f &&& 0xF#4) ++ (nibble x &&& 0x0#4)) ++ (nibble y &&& 0x0#4)) ++ (nibble n &&& 0xF#4) :=
    (and_append ((f ++ nibble x) ++ nibble y) _ (nibble n) _).trans (by rw [and_append, and_append])
  rw [show (0xF00F : Word) = ((0xF#4 ++ 0x0#4) ++ 0x0#4) ++ 0xF#4 from rfl, h]
  rw [show f &&& 0xF#4 = f from BitVec.and_allOnes, show nibble n &&& 0xF#4 = nibble n from BitVec.and_allOnes,
    BitVec.and_zero, BitVec.and_zero]; rfl

/-! ### Well-formedness -/

/-- The operand types admit only well-formed operands (R83). -/
theorem Instr.wellFormed_eq_true (i : Instr) : i.wellFormed = true := by
  have hf (n : Fin 16) : nibbleOk n.val = true := by simp [nibbleOk]
  have hb (b : Byte) : byteOk b.toNat = true := by simpa [byteOk] using b.isLt
  have ha (a : Addr) : addrOk a.toNat = true := by simpa [addrOk] using a.isLt
  cases i <;> simp only [Instr.wellFormed, hf, hb, ha, Bool.and_self]

end Sys2Proof
end

