-- ==== Sys2Proof/Laws/PerInstr.lean ====
section
/-!
SUPPORT. The per-instruction family `EncodeMatchesRow`: the word of an instruction lies in the row of the opcode table that
carries the instruction's mnemonic (spec/opcode_table.json, spec/30_encoding.md R82, R90).
-/

namespace Sys2Proof.Laws.EncodeMatchesRow

/-- The instruction's word lies in its own row of the opcode table. -/
def Statement (i : Instr) : Prop := ∃ r ∈ opcodeTable, r.mnemonic = i.mnemonic ∧ r.holds (encode i) = true

theorem cls : Statement .cls := ⟨⟨"00E0", 0xFFFF, 0x00E0⟩, by decide, rfl, by decide⟩
theorem ret : Statement .ret := ⟨⟨"00EE", 0xFFFF, 0x00EE⟩, by decide, rfl, by decide⟩
theorem jp (nnn : Addr) : Statement (.jp nnn) :=
  ⟨⟨"1NNN", 0xF000, 0x1000⟩, by decide, rfl, decide_eq_true (wordA_and_mask _ _)⟩
theorem call (nnn : Addr) : Statement (.call nnn) :=
  ⟨⟨"2NNN", 0xF000, 0x2000⟩, by decide, rfl, decide_eq_true (wordA_and_mask _ _)⟩
theorem seByte (x : RegIndex) (nn : Byte) : Statement (.seByte x nn) :=
  ⟨⟨"3XNN", 0xF000, 0x3000⟩, by decide, rfl, decide_eq_true (wordXK_and_mask_family _ _ _)⟩
theorem sneByte (x : RegIndex) (nn : Byte) : Statement (.sneByte x nn) :=
  ⟨⟨"4XNN", 0xF000, 0x4000⟩, by decide, rfl, decide_eq_true (wordXK_and_mask_family _ _ _)⟩
theorem seReg (x y : RegIndex) : Statement (.seReg x y) :=
  ⟨⟨"5XY0", 0xF00F, 0x5000⟩, by decide, rfl, decide_eq_true (wordXYN_and_mask_nibble _ _ _ _)⟩
theorem ldByte (x : RegIndex) (nn : Byte) : Statement (.ldByte x nn) :=
  ⟨⟨"6XNN", 0xF000, 0x6000⟩, by decide, rfl, decide_eq_true (wordXK_and_mask_family _ _ _)⟩
theorem addByte (x : RegIndex) (nn : Byte) : Statement (.addByte x nn) :=
  ⟨⟨"7XNN", 0xF000, 0x7000⟩, by decide, rfl, decide_eq_true (wordXK_and_mask_family _ _ _)⟩
theorem ldReg (x y : RegIndex) : Statement (.ldReg x y) :=
  ⟨⟨"8XY0", 0xF00F, 0x8000⟩, by decide, rfl, decide_eq_true (wordXYN_and_mask_nibble _ _ _ _)⟩
theorem orReg (x y : RegIndex) : Statement (.orReg x y) :=
  ⟨⟨"8XY1", 0xF00F, 0x8001⟩, by decide, rfl, decide_eq_true (wordXYN_and_mask_nibble _ _ _ _)⟩
theorem andReg (x y : RegIndex) : Statement (.andReg x y) :=
  ⟨⟨"8XY2", 0xF00F, 0x8002⟩, by decide, rfl, decide_eq_true (wordXYN_and_mask_nibble _ _ _ _)⟩
theorem xorReg (x y : RegIndex) : Statement (.xorReg x y) :=
  ⟨⟨"8XY3", 0xF00F, 0x8003⟩, by decide, rfl, decide_eq_true (wordXYN_and_mask_nibble _ _ _ _)⟩
theorem addReg (x y : RegIndex) : Statement (.addReg x y) :=
  ⟨⟨"8XY4", 0xF00F, 0x8004⟩, by decide, rfl, decide_eq_true (wordXYN_and_mask_nibble _ _ _ _)⟩
theorem subReg (x y : RegIndex) : Statement (.subReg x y) :=
  ⟨⟨"8XY5", 0xF00F, 0x8005⟩, by decide, rfl, decide_eq_true (wordXYN_and_mask_nibble _ _ _ _)⟩
theorem shrReg (x y : RegIndex) : Statement (.shrReg x y) :=
  ⟨⟨"8XY6", 0xF00F, 0x8006⟩, by decide, rfl, decide_eq_true (wordXYN_and_mask_nibble _ _ _ _)⟩
theorem subnReg (x y : RegIndex) : Statement (.subnReg x y) :=
  ⟨⟨"8XY7", 0xF00F, 0x8007⟩, by decide, rfl, decide_eq_true (wordXYN_and_mask_nibble _ _ _ _)⟩
theorem shlReg (x y : RegIndex) : Statement (.shlReg x y) :=
  ⟨⟨"8XYE", 0xF00F, 0x800E⟩, by decide, rfl, decide_eq_true (wordXYN_and_mask_nibble _ _ _ _)⟩
theorem sneReg (x y : RegIndex) : Statement (.sneReg x y) :=
  ⟨⟨"9XY0", 0xF00F, 0x9000⟩, by decide, rfl, decide_eq_true (wordXYN_and_mask_nibble _ _ _ _)⟩
theorem ldI (nnn : Addr) : Statement (.ldI nnn) :=
  ⟨⟨"ANNN", 0xF000, 0xA000⟩, by decide, rfl, decide_eq_true (wordA_and_mask _ _)⟩
theorem jpV0 (nnn : Addr) : Statement (.jpV0 nnn) :=
  ⟨⟨"BNNN", 0xF000, 0xB000⟩, by decide, rfl, decide_eq_true (wordA_and_mask _ _)⟩
theorem rndByte (x : RegIndex) (nn : Byte) : Statement (.rndByte x nn) :=
  ⟨⟨"CXNN", 0xF000, 0xC000⟩, by decide, rfl, decide_eq_true (wordXK_and_mask_family _ _ _)⟩
theorem drw (x y : RegIndex) (n : RowCount) : Statement (.drw x y n) :=
  ⟨⟨"DXYN", 0xF000, 0xD000⟩, by decide, rfl, decide_eq_true (wordXYN_and_mask_family _ _ _ _)⟩
theorem skp (x : RegIndex) : Statement (.skp x) :=
  ⟨⟨"EX9E", 0xF0FF, 0xE09E⟩, by decide, rfl, decide_eq_true (wordXK_and_mask_byte _ _ _)⟩
theorem sknp (x : RegIndex) : Statement (.sknp x) :=
  ⟨⟨"EXA1", 0xF0FF, 0xE0A1⟩, by decide, rfl, decide_eq_true (wordXK_and_mask_byte _ _ _)⟩
theorem ldVxDt (x : RegIndex) : Statement (.ldVxDt x) :=
  ⟨⟨"FX07", 0xF0FF, 0xF007⟩, by decide, rfl, decide_eq_true (wordXK_and_mask_byte _ _ _)⟩
theorem ldVxKey (x : RegIndex) : Statement (.ldVxKey x) :=
  ⟨⟨"FX0A", 0xF0FF, 0xF00A⟩, by decide, rfl, decide_eq_true (wordXK_and_mask_byte _ _ _)⟩
theorem ldDtVx (x : RegIndex) : Statement (.ldDtVx x) :=
  ⟨⟨"FX15", 0xF0FF, 0xF015⟩, by decide, rfl, decide_eq_true (wordXK_and_mask_byte _ _ _)⟩
theorem ldStVx (x : RegIndex) : Statement (.ldStVx x) :=
  ⟨⟨"FX18", 0xF0FF, 0xF018⟩, by decide, rfl, decide_eq_true (wordXK_and_mask_byte _ _ _)⟩
theorem addIVx (x : RegIndex) : Statement (.addIVx x) :=
  ⟨⟨"FX1E", 0xF0FF, 0xF01E⟩, by decide, rfl, decide_eq_true (wordXK_and_mask_byte _ _ _)⟩
theorem ldFVx (x : RegIndex) : Statement (.ldFVx x) :=
  ⟨⟨"FX29", 0xF0FF, 0xF029⟩, by decide, rfl, decide_eq_true (wordXK_and_mask_byte _ _ _)⟩
theorem ldBVx (x : RegIndex) : Statement (.ldBVx x) :=
  ⟨⟨"FX33", 0xF0FF, 0xF033⟩, by decide, rfl, decide_eq_true (wordXK_and_mask_byte _ _ _)⟩
theorem storeRegs (x : RegIndex) : Statement (.storeRegs x) :=
  ⟨⟨"FX55", 0xF0FF, 0xF055⟩, by decide, rfl, decide_eq_true (wordXK_and_mask_byte _ _ _)⟩
theorem loadRegs (x : RegIndex) : Statement (.loadRegs x) :=
  ⟨⟨"FX65", 0xF0FF, 0xF065⟩, by decide, rfl, decide_eq_true (wordXK_and_mask_byte _ _ _)⟩

end Sys2Proof.Laws.EncodeMatchesRow
end

