-- ==== Sys2Proof/Tests/Slice0.lean ====
section
/-!
SUPPORT. Small checks: ill-formed terms and words that the checks refuse, a word written out for every constructor, single
steps with the results of spec/95_test_vectors.md (ids E1–E12, V1–V188, P1–P7), and for every statement with hypotheses a
state and operands that meet them.
-/

namespace Sys2Proof.Tests

open Sys2Proof.Machine

/-! ### Helpers -/

/-- The state after RESET with some general registers changed. -/
def regs (rs : List (RegIndex × Byte)) : State := rs.foldl (fun s r => s.setV r.1 r.2) State.reset

/-- The other setting of P_VF_ALIAS. -/
def latched (s : State) : State := { s with config := { s.config with vfAlias := .latched } }

/-- The other setting of P_STACK_POLICY. -/
def checked (s : State) : State := { s with config := { s.config with stackPolicy := .fault } }

/-- Does the outcome answer a next state for which the test holds? -/
def gives (r : StepResult) (p : State → Bool) : Bool :=
  match r with
  | .next t => p t
  | .fault _ => false
  | .refused _ => false

/-- CYCLE(0) on a state with the word at PC answers a state for which the test holds. -/
def runs (w : Nat) (s : State) (p : State → Bool) : Bool := gives (cycle 0 (s.withFetchWord 16 w)) p

/-- Run a list of transactions; the last state. -/
def afterAll : List Transaction → State → State
  | [], s => s
  | t :: ts, s =>
    match transact t s with
    | .next (u, _) => afterAll ts u
    | .fault _ => s
    | .refused _ => s

/-- What a transaction returns. -/
def returned (t : Transaction) (s : State) : Option Result :=
  match transact t s with
  | .next (_, r) => some r
  | .fault _ => none
  | .refused _ => none

/-- The keys of a list are pressed, the others are not. -/
def pressed (ks : List KeyIndex) : Keys := Vector.ofFn fun k => ks.contains k

/-- The cells of a list are set, the others are not. -/
def cells (cs : List (Fin 64 × Fin 32)) : Framebuffer := (drawCells cs Framebuffer.blank).1

/-- The cells of the first list are set, those of the second are not. -/
def shows (on off : List (Fin 64 × Fin 32)) (t : State) : Bool :=
  on.all (fun c => t.fb.get c.1 c.2) && off.all (fun c => !t.fb.get c.1 c.2)

/-- The fault record is this one, with fault_pc 0x200. -/
def faulted (c : FaultCause) (op info : Word) (t : State) : Bool := decide (t.fault = ⟨c, 0x200, op, info⟩)

/-! ### Well-formedness: what the checks refuse (R83, R90) -/

theorem test_nibbleOk_refuses_16 : nibbleOk 16 = false ∧ nibbleOk 15 = true := by decide
theorem test_byteOk_refuses_256 : byteOk 256 = false ∧ byteOk 255 = true := by decide
theorem test_addrOk_refuses_4096 : addrOk 4096 = false ∧ addrOk 4095 = true := by decide

/-- V5–V14: words the opcode table refuses. -/
theorem test_legalWord_refuses :
    [0x0000, 0x01E0, 0x0123, 0x5121, 0x9128, 0x8008, 0x800F, 0xE19F, 0xF000, 0xF1FF].all (fun w => !legalWord w) = true := by
  decide

theorem test_decode_refuses_by_name :
    decode [0x51, 0x21] = .error (.illegal 0x5121) ∧ decode [0x51] = .error .incomplete ∧ decode [] = .error .incomplete := by
  decide

/-! ### A word for every constructor, written out from the patterns (R82) -/

/-- Family 0 and the formats A and XK: 0000 0000 1110 0000, 0000 0000 1110 1110, F NNN, F X NN. -/
theorem test_decode_fixed_and_address :
    decodeWord 0b0000000011100000 = some .cls ∧ decodeWord 0b0000000011101110 = some .ret ∧
    decodeWord 0b0001101010111100 = some (.jp 0xABC) ∧ decodeWord 0b0010010001010110 = some (.call 0x456) ∧
    decodeWord 0b1010000100100011 = some (.ldI 0x123) ∧ decodeWord 0b1011001100000000 = some (.jpV0 0x300) := by decide

theorem test_decode_byte_literals :
    decodeWord 0b0011001101000010 = some (.seByte 3 0x42) ∧ decodeWord 0b0100001101000010 = some (.sneByte 3 0x42) ∧
    decodeWord 0b0110101010011100 = some (.ldByte 0xA 0x9C) ∧ decodeWord 0b0111000011111111 = some (.addByte 0 0xFF) ∧
    decodeWord 0b1100001100001111 = some (.rndByte 3 0x0F) := by decide

theorem test_decode_two_registers :
    decodeWord 0b0101000100100000 = some (.seReg 1 2) ∧ decodeWord 0b1001000100100000 = some (.sneReg 1 2) ∧
    decodeWord 0b1000000100100000 = some (.ldReg 1 2) ∧ decodeWord 0b1000000100100001 = some (.orReg 1 2) ∧
    decodeWord 0b1000000100100010 = some (.andReg 1 2) ∧ decodeWord 0b1000000100100011 = some (.xorReg 1 2) := by decide

theorem test_decode_flag_writers :
    decodeWord 0b1000000100100100 = some (.addReg 1 2) ∧ decodeWord 0b1000000100100101 = some (.subReg 1 2) ∧
    decodeWord 0b1000000100100110 = some (.shrReg 1 2) ∧ decodeWord 0b1000000100100111 = some (.subnReg 1 2) ∧
    decodeWord 0b1000000100101110 = some (.shlReg 1 2) ∧ decodeWord 0b1101000000010101 = some (.drw 0 1 5) := by decide

theorem test_decode_keys_and_timers :
    decodeWord 0b1110000110011110 = some (.skp 1) ∧ decodeWord 0b1110000110100001 = some (.sknp 1) ∧
    decodeWord 0b1111001000000111 = some (.ldVxDt 2) ∧ decodeWord 0b1111010000001010 = some (.ldVxKey 4) ∧
    decodeWord 0b1111001000010101 = some (.ldDtVx 2) ∧ decodeWord 0b1111001000011000 = some (.ldStVx 2) := by decide

theorem test_decode_index :
    decodeWord 0b1111000000011110 = some (.addIVx 0) ∧ decodeWord 0b1111000000101001 = some (.ldFVx 0) ∧
    decodeWord 0b1111001100110011 = some (.ldBVx 3) ∧ decodeWord 0b1111111101010101 = some (.storeRegs 0xF) ∧
    decodeWord 0b1111001001100101 = some (.loadRegs 2) := by decide

/-- R80: the table's bits are numbered from the least significant bit of the word; bits above `nbits` are not read. -/
theorem test_decodeTableWord : decodeTableWord 16 0xF333 = some (.ldBVx 3) ∧ decodeTableWord 16 0x0000 = none := by decide

/-! ### The cycle (V1–V16, P5) -/

theorem test_V1_last_word : runs 0x00E0 { State.reset with PC := 0xFFE } (fun t => t.PC == 0x1000 && !t.halted) = true := by
  decide

theorem test_V3_fetch_range :
    gives (cycle 0 { State.reset with PC := 0xFFF }) (fun t => decide (t.fault = ⟨.fetchRange, 0xFFF, 0, 0xFFF⟩)) = true := by
  decide

theorem test_V4_odd_pc : runs 0x6042 { State.reset with PC := 0x201 } (fun t => t.getV 0 == 0x42 && t.PC == 0x203) = true := by
  decide

/-- P5: the first cycle on empty memory. -/
theorem test_P5_empty_memory :
    cycle 0 State.reset = .next { State.reset with loadClosed := true, fault := ⟨.illegalInstruction, 0x200, 0, 0⟩ } := by
  rfl

theorem test_V15_skips_illegal_word : runs 0x3000 State.reset (fun t => t.PC == 0x204 && !t.halted) = true := by decide

/-- The host's placing of a word: the very next step runs it. -/
theorem test_withFetchWord : gives (step (State.reset.withFetchWord 16 0x6A9C)) (fun t => t.getV 0xA == 0x9C) = true := by decide

/-! ### Control flow (V20–V43) -/

theorem test_V24_ret :
    runs 0x00EE { State.reset with SP := 3, stack := State.reset.stack.set 2 0x310 } (fun t => t.SP == 2 && t.PC == 0x312) = true := by
  decide

/-- V25, V26. -/
theorem test_ret_on_empty_stack :
    (runs 0x00EE State.reset (fun t => t.SP == 15 && t.PC == 0x0002) &&
      runs 0x00EE (checked State.reset) (faulted .stackUnderflow 0x00EE 0)) = true := by decide

theorem test_V20_jp : runs 0x1ABC State.reset (fun t => t.PC == 0x0ABC) = true := by decide

theorem test_V23_call :
    runs 0x2456 State.reset (fun t => t.stack[0] == 0x0200 && t.SP == 1 && t.PC == 0x0456) = true := by decide

/-- V27, V28, V29. -/
theorem test_call_at_the_top :
    (runs 0x2300 { State.reset with SP := 15 } (fun t => t.stack[15] == 0x0200 && t.SP == 0 && t.PC == 0x0300) &&
      runs 0x2300 (checked { State.reset with SP := 15 }) (fun t => t.stack[15] == 0x0200 && t.SP == 16 && t.PC == 0x0300) &&
      runs 0x2300 (checked { State.reset with SP := 16 }) (faulted .stackOverflow 0x2300 16)) = true := by decide

/-- V30, V31. -/
theorem test_seByte :
    (runs 0x3342 (regs [(3, 0x42)]) (fun t => t.PC == 0x204) && runs 0x3342 (regs [(3, 0x41)]) (fun t => t.PC == 0x202)) = true := by
  decide

/-- V32, V33. -/
theorem test_sneByte :
    (runs 0x4342 (regs [(3, 0x42)]) (fun t => t.PC == 0x202) && runs 0x4342 (regs [(3, 0x41)]) (fun t => t.PC == 0x204)) = true := by
  decide

/-- V34, V35. -/
theorem test_seReg :
    (runs 0x5120 (regs [(1, 7), (2, 7)]) (fun t => t.PC == 0x204) && runs 0x5120 (regs [(1, 7), (2, 8)]) (fun t => t.PC == 0x202)) = true := by
  decide

/-- V37, V38. -/
theorem test_sneReg :
    (runs 0x9120 (regs [(1, 7), (2, 8)]) (fun t => t.PC == 0x204) && runs 0x9120 (regs [(1, 7), (2, 7)]) (fun t => t.PC == 0x202)) = true := by
  decide

/-- V41, V42. -/
theorem test_jpV0 :
    (runs 0xBFFF (regs [(0, 0xFF)]) (fun t => t.PC == 0x10FE) && runs 0xB200 (regs [(0, 1), (1, 0x99)]) (fun t => t.PC == 0x201)) = true := by
  decide

/-! ### ALU (V50–V94) -/

theorem test_V50_ldByte : runs 0x6A9C State.reset (fun t => t.getV 0xA == 0x9C && t.PC == 0x202) = true := by decide

/-- V51, V53. -/
theorem test_addByte :
    (runs 0x7001 (regs [(0, 0xFF), (0xF, 0x55)]) (fun t => t.getV 0 == 0 && t.getV 0xF == 0x55) &&
      runs 0x7F01 (regs [(0xF, 0x10)]) (fun t => t.getV 0xF == 0x11)) = true := by decide

theorem test_V54_ldReg : runs 0x8120 (regs [(2, 0x33)]) (fun t => t.getV 1 == 0x33 && t.getV 2 == 0x33) = true := by decide

theorem test_V55_orReg :
    runs 0x8121 (regs [(1, 0x0F), (2, 0xF0), (0xF, 0x55)]) (fun t => t.getV 1 == 0xFF && t.getV 0xF == 0x55) = true := by decide

theorem test_V56_andReg : runs 0x8122 (regs [(1, 0x3C), (2, 0x0F)]) (fun t => t.getV 1 == 0x0C) = true := by decide
theorem test_V57_xorReg : runs 0x8123 (regs [(1, 0x3C), (2, 0x0F)]) (fun t => t.getV 1 == 0x33) = true := by decide

/-- E2, E3. -/
theorem test_addReg :
    (runs 0x8124 (regs [(1, 0xFF), (2, 1)]) (fun t => t.getV 1 == 0 && t.getV 0xF == 1) &&
      runs 0x8124 (regs [(1, 1), (2, 1)]) (fun t => t.getV 1 == 2 && t.getV 0xF == 0)) = true := by decide

/-- V80, V84. -/
theorem test_addReg_aliased :
    (runs 0x8114 (regs [(1, 0x80)]) (fun t => t.getV 1 == 0 && t.getV 0xF == 0) &&
      runs 0x8114 (latched (regs [(1, 0x80)])) (fun t => t.getV 1 == 0 && t.getV 0xF == 1) &&
      runs 0x8FF4 (regs [(0xF, 0x80)]) (fun t => t.getV 0xF == 0) &&
      runs 0x8FF4 (latched (regs [(0xF, 0x80)])) (fun t => t.getV 0xF == 1)) = true := by decide

/-- E4, E5. -/
theorem test_subReg :
    (runs 0x8125 (regs [(1, 5), (2, 0xA)]) (fun t => t.getV 1 == 0xFB && t.getV 0xF == 0) &&
      runs 0x8125 (regs [(1, 0xA), (2, 5)]) (fun t => t.getV 1 == 5 && t.getV 0xF == 1)) = true := by decide

/-- V85, V86. -/
theorem test_subReg_aliased :
    (runs 0x8F15 (regs [(0xF, 0x10), (1, 5)]) (fun t => t.getV 0xF == 0xFC) &&
      runs 0x8F15 (latched (regs [(0xF, 0x10), (1, 5)])) (fun t => t.getV 0xF == 1) &&
      runs 0x81F5 (regs [(1, 0x10), (0xF, 5)]) (fun t => t.getV 1 == 0x0F && t.getV 0xF == 1) &&
      runs 0x81F5 (latched (regs [(1, 0x10), (0xF, 5)])) (fun t => t.getV 1 == 0x0B && t.getV 0xF == 1)) = true := by decide

theorem test_V65_shrReg : runs 0x8126 (regs [(1, 4), (2, 0xFF)]) (fun t => t.getV 1 == 2 && t.getV 0xF == 0) = true := by decide

theorem test_V89_shrReg_vf :
    (runs 0x8F06 (regs [(0xF, 3)]) (fun t => t.getV 0xF == 0) && runs 0x8F06 (latched (regs [(0xF, 3)])) (fun t => t.getV 0xF == 1)) = true := by
  decide

/-- V67, V68. -/
theorem test_subnReg :
    (runs 0x8127 (regs [(1, 5), (2, 0xA)]) (fun t => t.getV 1 == 5 && t.getV 0xF == 1) &&
      runs 0x8127 (regs [(1, 0xA), (2, 5)]) (fun t => t.getV 1 == 0xFB && t.getV 0xF == 0)) = true := by decide

/-- V90, V91. -/
theorem test_subnReg_aliased :
    (runs 0x8F17 (regs [(0xF, 0x10), (1, 5)]) (fun t => t.getV 0xF == 5) &&
      runs 0x8F17 (latched (regs [(0xF, 0x10), (1, 5)])) (fun t => t.getV 0xF == 0) &&
      runs 0x81F7 (regs [(1, 5), (0xF, 0x10)]) (fun t => t.getV 1 == 0xFC && t.getV 0xF == 1) &&
      runs 0x81F7 (latched (regs [(1, 5), (0xF, 0x10)])) (fun t => t.getV 1 == 0x0B && t.getV 0xF == 1)) = true := by decide

theorem test_V70_shlReg : runs 0x812E (regs [(1, 0x81)]) (fun t => t.getV 1 == 2 && t.getV 0xF == 1) = true := by decide

theorem test_V93_shlReg_vf :
    (runs 0x8F0E (regs [(0xF, 0x80)]) (fun t => t.getV 0xF == 2) && runs 0x8F0E (latched (regs [(0xF, 0x80)])) (fun t => t.getV 0xF == 1)) = true := by
  decide

theorem test_V73_rndByte : gives (cycle 0xA7 (State.reset.withFetchWord 16 0xC30F)) (fun t => t.getV 3 == 7) = true := by decide

/-! ### Index register and memory (V100–V118, E8) -/

theorem test_V100_ldI : runs 0xA123 State.reset (fun t => t.I == 0x0123) = true := by decide

/-- V101, V102. -/
theorem test_addIVx :
    (runs 0xF01E { regs [(0, 1), (0xF, 0x55)] with I := 0x0FFF } (fun t => t.I == 0x1000 && t.getV 0xF == 0x55) &&
      runs 0xF01E { regs [(0, 1)] with I := 0xFFFF } (fun t => t.I == 0)) = true := by decide

/-- V104, V105. -/
theorem test_ldFVx :
    (runs 0xF029 (regs [(0, 0x10)]) (fun t => t.I == 0x50) && runs 0xF029 (regs [(0, 0xFF)]) (fun t => t.I == 0x4FB)) = true := by
  decide

/-- E8 at V109's address. -/
theorem test_ldBVx :
    runs 0xF033 { regs [(0, 0x9C)] with I := 0xFFD }
      (fun t => t.readByte 0xFFD == 1 && t.readByte 0xFFE == 5 && t.readByte 0xFFF == 6 && t.I == 0xFFD) = true := by decide

theorem test_V110_ldBVx_faults :
    runs 0xF033 { regs [(0, 0x9C)] with I := 0xFFE }
      (fun t => faulted .memRange 0xF033 0x1000 t && t.readByte 0xFFE == 0) = true := by decide

theorem test_E9_storeRegs :
    runs 0xF255 { regs [(0, 0x11), (1, 0x22), (2, 0x33), (3, 0x44)] with I := 0x300 }
      (fun t => t.readByte 0x300 == 0x11 && t.readByte 0x302 == 0x33 && t.readByte 0x303 == 0 && t.I == 0x303) = true := by decide

/-- V114, V115. -/
theorem test_storeRegs_faults :
    (runs 0xFF55 { State.reset with I := 0xFF1 } (fun t => faulted .memRange 0xFF55 0x1000 t && t.I == 0xFF1) &&
      runs 0xF055 { State.reset with I := 0xFFFF } (faulted .memRange 0xF055 0xFFFF)) = true := by decide

theorem test_E9_loadRegs :
    runs 0xF165 { State.reset.writeBytes 0x204 [0x12, 0x34, 0x56] with I := 0x204 }
      (fun t => t.getV 0 == 0x12 && t.getV 1 == 0x34 && t.getV 2 == 0 && t.I == 0x206) = true := by decide

theorem test_V117_loadRegs_faults :
    runs 0xFF65 { regs [(0, 9)] with I := 0xFF1 } (fun t => faulted .memRange 0xFF65 0x1000 t && t.getV 0 == 9) = true := by
  decide

/-- Writing what an address reads as at reset takes its entry out: 0xF0 at 0x000 is the font's. -/
theorem test_write_canonical :
    (State.reset.writeBytes 0 [0x11]).mem = [(0, 0x11)] ∧ ((State.reset.writeBytes 0 [0x11]).writeBytes 0 [0xF0]).mem = [] := by
  decide

/-! ### Display (E6, V130–V141) -/

theorem test_V130_cls : runs 0x00E0 { State.reset with fb := cells [(3, 4), (63, 31)] } (shows [] [(3, 4), (63, 31)]) = true := by
  decide

theorem test_E6_drw_wraps :
    runs 0xD011 { (regs [(0, 0x3C)]).writeBytes 0x300 [0xFF] with I := 0x300 }
      (fun t => shows [(60, 0), (63, 0), (0, 0), (3, 0)] [(59, 0), (4, 0), (60, 1)] t && t.getV 0xF == 0) = true := by
  decide

/-- V131, V133, V137: the vertical wrap; a collision; X = F. -/
theorem test_drw_corners :
    (runs 0xD012 { (regs [(1, 31)]).writeBytes 0x300 [0x80, 0x80] with I := 0x300 }
        (fun t => shows [(0, 31), (0, 0)] [(1, 31), (0, 1)] t && t.getV 0xF == 0) &&
      runs 0xD011 { State.reset.writeBytes 0x300 [0xC0] with I := 0x300, fb := cells [(0, 0)] }
        (fun t => shows [(1, 0)] [(0, 0), (2, 0)] t && t.getV 0xF == 1) &&
      runs 0xDF11 { (regs [(0xF, 0x0A)]).writeBytes 0x300 [0x80] with I := 0x300 }
        (fun t => shows [(10, 0)] [(0, 0), (9, 0)] t && t.getV 0xF == 0)) = true := by decide

/-! ### Keys and timers (V150–V166) -/

/-- V150, V151, V154. -/
theorem test_skp :
    (runs 0xE19E { regs [(1, 7)] with keys := pressed [7] } (fun t => t.PC == 0x204) &&
      runs 0xE19E (regs [(1, 7)]) (fun t => t.PC == 0x202) &&
      runs 0xE19E (regs [(1, 0x10)]) (faulted .keyRange 0xE19E 0x10)) = true := by decide

/-- V152, V153, V155. -/
theorem test_sknp :
    (runs 0xE1A1 { regs [(1, 7)] with keys := pressed [7] } (fun t => t.PC == 0x202) &&
      runs 0xE1A1 (regs [(1, 7)]) (fun t => t.PC == 0x204) &&
      runs 0xE1A1 (regs [(1, 0xFF)]) (faulted .keyRange 0xE1A1 0xFF)) = true := by decide

theorem test_V156_ldVxDt : runs 0xF207 { State.reset with DT := 0x3C } (fun t => t.getV 2 == 0x3C) = true := by decide
theorem test_V157_ldDtVx : runs 0xF215 (regs [(2, 0x3C)]) (fun t => t.DT == 0x3C && t.ST == 0) = true := by decide
theorem test_V158_ldStVx : runs 0xF218 (regs [(2, 5)]) (fun t => t.ST == 5 && t.DT == 0) = true := by decide

/-- V162, the first entry with key 3 held, and the waiting cycle after it. -/
theorem test_ldVxKey_waits :
    (runs 0xF40A { State.reset with keys := pressed [3] }
        (fun t => t.waiting && t.prevKeys == pressed [3] && t.PC == 0x200) &&
      runs 0xF40A { State.reset with keys := pressed [3], prevKeys := pressed [3], waiting := true }
        (fun t => t.waiting && t.PC == 0x200 && t.getV 4 == 0)) = true := by decide

/-- V163: two newly pressed keys, the lowest is taken. -/
theorem test_ldVxKey_completes :
    runs 0xF40A { State.reset with keys := pressed [5, 9], waiting := true }
      (fun t => !t.waiting && t.PC == 0x202 && t.getV 4 == 5) = true := by decide

/-! ### Host transactions (E11, V159–V188) -/

theorem test_E11_tick :
    (let t := afterAll [.tick] { State.reset with DT := 0, ST := 3 }; t.DT == 0 && t.ST == 2) = true := by decide

/-- A core that P5's first cycle has halted, with DT = 5. -/
def haltedCore : State := { State.reset with DT := 5, fault := ⟨.illegalInstruction, 0x200, 0, 0⟩, loadClosed := true }

/-- V16, V161, V185, V186. -/
theorem test_halted_core :
    (decide (returned (.cycle 0) haltedCore = some .halted) && (afterAll [.tick] haltedCore).DT == 5 &&
      decide (returned (.load []) haltedCore = some .refused) &&
      (afterAll [.setKeys (pressed [1])] haltedCore).keys == pressed []) = true := by decide

/-- V187. -/
theorem test_V187_reset : afterAll [.reset] haltedCore = State.reset := by rfl

/-- V182, V184: LOAD closes its own gate, also with no bytes. -/
theorem test_load_once :
    (let s := afterAll [.load []] State.reset
     decide (returned (.load []) State.reset = some .accepted) && decide (returned (.load [0x12]) s = some .refused)) = true := by
  decide

/-- P4's first two cycles: blocked, then ok with V3 = 7. -/
theorem test_P4_statuses :
    (let s := afterAll [.load [0xF3, 0x0A]] State.reset
     let t := afterAll [.cycle 0, .setKeys (pressed [7])] s
     decide (returned (.cycle 0) s = some .blocked) && decide (returned (.cycle 0) t = some .ok) &&
      (afterAll [.cycle 0] t).getV 3 == 7) = true := by decide

/-- A fault is reported by CYCLE and read back by READ_FAULT (V188). -/
theorem test_V188_readFault :
    (let s := { regs [(0, 0x9C)] with I := 0xFFE }.withFetchWord 16 0xF033
     decide (returned (.cycle 0) s = some (.fault .memRange)) &&
      decide (returned .readFault (afterAll [.cycle 0] s) = some (.record ⟨.memRange, 0x200, 0xF033, 0x1000⟩))) = true := by
  decide

/-- A step takes the first transaction of the script. -/
theorem test_script_step :
    gives (step { State.reset with script := [.load [0x12], .tick] })
      (fun t => t.readByte 0x200 == 0x12 && decide (t.script = [.tick])) = true := by decide

/-! ### Witnesses: states and operands that meet the hypotheses of the statements, each clause at its boundary -/

theorem witness_DecodeEncodeRoundTrip : (Instr.drw 15 15 15).wellFormed = true := by decide
theorem witness_EncodeDecodeRoundTrip : decodeWord 0xFF65 = some (.loadRegs 15) := by decide

theorem witness_DecodeFollowsOpcodeTable :
    decodeWord 0x8FFE = some (.shlReg 15 15) ∧ (⟨"8XYE", 0xF00F, 0x800E⟩ : OpcodeRow) ∈ opcodeTable := by decide

theorem witness_FamilySubDispatch : (0xFFF < 0x1000) ∧ (15 : Fin 16) ∈ ([0x8, 0x9, 0xA, 0xB, 0xC, 0xD, 0xF] : List (Fin 16)) := by
  decide

/-- A running core with 00 E0 at the last fetchable address. -/
def lastWord : State := { State.reset.writeBytes 0xFFE [0x00, 0xE0] with PC := 0xFFE }

theorem witness_StepRunsDecodedInstruction :
    lastWord.halted = false ∧ lastWord.PC.toNat ≤ 0x0FFE ∧ Instr.cls.wellFormed = true ∧
      decode [lastWord.readByte lastWord.PC.toNat, lastWord.readByte (lastWord.PC.toNat + 1)] = .ok (.cls, []) ∧
      lastWord.script = [] ∧ ({ lastWord with script := [.cycle 7, .tick] } : State).script = .cycle 7 :: [.tick] := by
  refine ⟨?_, ?_, ?_, ?_, rfl, rfl⟩ <;> decide

theorem witness_FetchReadsWordOrFaults :
    State.reset.halted = false ∧ 0x0FFF ≤ ({ State.reset with PC := 0xFFF } : State).PC.toNat ∧
      ({ State.reset with PC := 0xFFE } : State).PC.toNat ≤ 0x0FFE := by decide

theorem witness_IllegalWordFaults :
    State.reset.halted = false ∧ State.reset.fetch = some 0 ∧ (∀ r ∈ opcodeTable, 0 &&& r.mask ≠ r.pattern) := by decide

theorem witness_HaltedCoreStandsStill : haltedCore.halted = true := by decide

theorem witness_FaultsArePrecise :
    State.reset.halted = false ∧ gives (cycle 0 State.reset) (fun t => t.halted) = true := by decide

/-- Every cause, and no fault, is the record of some cycle of a running core. -/
theorem witness_CycleFaultRecord :
    (recordAfterCycle { State.reset with PC := 0xFFF }).cause = .fetchRange ∧
    (recordAfterCycle State.reset).cause = .illegalInstruction ∧
    (recordAfterCycle ({ State.reset with I := 0xFFE }.withFetchWord 16 0xF033)).cause = .memRange ∧
    (recordAfterCycle ((regs [(1, 16)]).withFetchWord 16 0xE19E)).cause = .keyRange ∧
    (recordAfterCycle ((checked { State.reset with SP := 16 }).withFetchWord 16 0x2300)).cause = .stackOverflow ∧
    (recordAfterCycle ((checked State.reset).withFetchWord 16 0x00EE)).cause = .stackUnderflow ∧
    (recordAfterCycle lastWord).cause = .none := by decide

/-- The last of sixteen addresses, and the first of one. -/
theorem witness_DataAddressFaults :
    (∃ k < dataBytes (.storeRegs 15), 0x1000 ≤ ({ State.reset with I := 0xFF1 } : State).I.toNat + k) ∧
    (∃ k < dataBytes (.drw 0 0 1), 0x1000 ≤ ({ State.reset with I := 0x1000 } : State).I.toNat + k) := by decide

theorem witness_CycleReturns :
    returned (.cycle 0) haltedCore = some .halted ∧ returned (.cycle 0) State.reset = some (.fault .illegalInstruction) ∧
    returned (.cycle 0) (State.reset.withFetchWord 16 0xF30A) = some .blocked ∧ returned (.cycle 0) lastWord = some .ok := by
  decide

theorem witness_GeneralRegisterWriters :
    gives (exec (.loadRegs 14) State.reset) (fun _ => true) = true ∧ mayWrite (.loadRegs 14) 15 = false ∧
      mayWrite (.loadRegs 14) 14 = true := by decide

theorem witness_FrameOfEveryInstruction :
    gives (exec (.storeRegs 15) { State.reset with I := 0xFF0 }) (fun _ => true) = true ∧
      executeFault (.storeRegs 15) { State.reset with I := 0xFF0 } = none ∧ MemoryCanonical { State.reset with I := 0xFF0 } ∧
      (0xFEF < ({ State.reset with I := 0xFF0 } : State).dataAddr 0) ∧ (1 : Fin 16) ≠ stackIndex State.reset.SP.val := by
  exact ⟨by decide, by decide, rfl, by decide, by decide⟩

theorem witness_PcAfterEachInstruction :
    executeFault (.skp 1) (regs [(1, 15)]) = none ∧ gives (exec (.skp 1) (regs [(1, 15)])) (fun _ => true) = true := by decide

theorem witness_HiddenStateIsNotRead :
    gives (exec .cls State.reset) (fun _ => true) = true ∧ (∀ x, Instr.cls ≠ .ldVxKey x) ∧ (∀ x, Instr.cls ≠ .ldStVx x) ∧
      (∀ x nn, Instr.cls ≠ .rndByte x nn) := by
  refine ⟨by decide, ?_, ?_, ?_⟩ <;> intros <;> simp

/-- Each of the parts named is changed by some transaction. -/
theorem witness_OnlyNamedTransactionsChange :
    (afterAll [.load [1]] State.reset).readByte 0x200 ≠ State.reset.readByte 0x200 ∧
    (afterAll [.tick] { State.reset with DT := 1, ST := 1 }).DT ≠ 1 ∧
    (afterAll [.tick] { State.reset with DT := 1, ST := 1 }).ST ≠ 1 ∧
    (afterAll [.cycle 0] ({ State.reset with fb := cells [(0, 0)] }.withFetchWord 16 0x00E0)).fb.get 0 0 ≠ (cells [(0, 0)]).get 0 0 ∧
    (afterAll [.setKeys (pressed [1])] State.reset).keys ≠ State.reset.keys ∧
    (afterAll [.cycle 0] (State.reset.withFetchWord 16 0x2456)).stack[0] ≠ (State.reset.withFetchWord 16 0x2456).stack[0] := by
  decide

/-- SP at both ends of its range under both policies, for the clauses of the call and the return that complete. -/
theorem witness_stack_clauses :
    (∀ n ∈ ([0, 15] : List (Fin 17)), StackPointerInRange { State.reset with SP := n } ∧
      ¬ (({ State.reset with SP := n } : State).config.stackPolicy = .fault ∧ n.val = 16)) ∧
    (∀ n ∈ ([0, 15] : List (Fin 17)), ¬ ((checked { State.reset with SP := n }).config.stackPolicy = .fault ∧ n.val = 16)) ∧
    (∀ n ∈ ([1, 16] : List (Fin 17)), StackPointerInRange (checked { State.reset with SP := n }) ∧
      ¬ ((checked { State.reset with SP := n }).config.stackPolicy = .fault ∧ n.val = 0)) := by
  simp only [StackPointerInRange]; decide

/-- CallPushesItsAddress and ReturnPopsAddress: the clauses that fault. -/
theorem witness_stack_faults :
    StackPointerInRange (checked { State.reset with SP := 16 }) ∧
    (checked { State.reset with SP := 16 }).config.stackPolicy = .fault ∧ (checked { State.reset with SP := 16 }).SP.val = 16 ∧
    StackPointerInRange (checked State.reset) ∧ (checked State.reset).config.stackPolicy = .fault ∧
    (checked State.reset).SP.val = 0 := by
  simp only [StackPointerInRange]; decide

theorem witness_CallThenReturn :
    StackPointerInRange { State.reset with SP := 15 } ∧
      ¬ (({ State.reset with SP := 15 } : State).config.stackPolicy = .fault ∧ ({ State.reset with SP := 15 } : State).SP.val = 16) := by
  simp only [StackPointerInRange]; decide

/-- AddWithCarry: X ≠ F, X ≠ Y, and X = Y under each setting; each is met at the carry's boundary. -/
theorem witness_AddWithCarry :
    (1 : RegIndex) ≠ VF ∧ (1 : RegIndex) ≠ 2 ∧ State.reset.config.vfAlias = .sequential ∧
      (latched State.reset).config.vfAlias = .latched ∧
      256 ≤ ((regs [(1, 0xFF), (2, 1)]).getV 1).toNat + ((regs [(1, 0xFF), (2, 1)]).getV 2).toNat := by decide

/-- SubtractWithBorrow and ReverseSubtractWithBorrow: operands at the borrow's boundary, and both settings, for any X, Y. -/
theorem witness_subtract_clauses :
    (0x42 : Byte) = (regs [(1, 0x42), (2, 0x42)]).getV 1 ∧ (0x42 : Byte) = (regs [(1, 0x42), (2, 0x42)]).getV 2 ∧
      (1 : Byte) = (if (0x42 : Byte).toNat < (0x42 : Byte).toNat then 0 else 1) ∧
      (0 : Byte) = (if (0x42 : Byte).toNat < (0x43 : Byte).toNat then 0 else 1) ∧ (1 : RegIndex) ≠ VF ∧ (2 : RegIndex) ≠ VF ∧
      State.reset.config.vfAlias = .sequential ∧ (latched State.reset).config.vfAlias = .latched := by decide

theorem witness_ShiftsByOne :
    (0x81 : Byte) = (regs [(1, 0x81)]).getV 1 ∧ (0x81 : Byte) = (regs [(0xF, 0x81)]).getV VF ∧ (1 : RegIndex) ≠ VF ∧
      State.reset.config.vfAlias = .sequential ∧ (latched State.reset).config.vfAlias = .latched := by decide

theorem witness_AliasSettingsAgree :
    (14 : RegIndex) ≠ VF ∧ (0 : RegIndex) ≠ VF ∧ (14 : RegIndex) ≠ 0 ∧ Instr.addReg 14 0 ∈ [Instr.addReg 14 0, .subReg 14 0] := by
  decide

theorem witness_RandomByteMasked :
    (State.reset.withFetchWord 16 0xCFFF).halted = false ∧
      (State.reset.withFetchWord 16 0xCFFF).fetchedInstr = some (.rndByte 15 0xFF) := by decide

/-- DecimalDigitsStored: the last address that completes and the first that faults. -/
theorem witness_DecimalDigitsStored :
    MemoryCanonical { State.reset with I := 0xFFD } ∧ ({ State.reset with I := 0xFFD } : State).dataAddr 2 ≤ 0xFFF ∧
      0xFFF < ({ State.reset with I := 0xFFE } : State).dataAddr 2 := by
  exact ⟨rfl, by decide, by decide⟩

/-- RegistersStored, RegistersLoaded, StoreThenLoadRoundTrips: the same, with X = F. -/
theorem witness_register_lists :
    MemoryCanonical { State.reset with I := 0xFF0 } ∧ ({ State.reset with I := 0xFF0 } : State).dataAddr (15 : RegIndex).val ≤ 0xFFF ∧
      0xFFF < ({ State.reset with I := 0xFF1 } : State).dataAddr (15 : RegIndex).val ∧
      (∀ k : Fin 16, 14 < k → (Vector.replicate 16 (0 : Byte))[k.val] = State.reset.getV k) := by
  exact ⟨rfl, by decide, by decide, by decide⟩

theorem witness_StoredBytesAreFetchedNext :
    MemoryCanonical { State.reset with I := 0xFF0 } ∧ ({ State.reset with I := 0xFF0 } : State).dataAddr (15 : RegIndex).val ≤ 0xFFF ∧
      (14 : RegIndex) < 15 ∧ (15 : RegIndex).val = (14 : RegIndex).val + 1 ∧
      gives (exec (.storeRegs 15) { State.reset with I := 0xFF0 })
        (fun t => ({ t with PC := 0xFFE } : State).PC.toNat == ({ State.reset with I := 0xFF0 } : State).dataAddr (14 : RegIndex).val) = true := by
  exact ⟨rfl, by decide, by decide, by decide, by decide⟩

theorem witness_EqualReadsEqualMemories :
    MemoryCanonical lastWord ∧ MemoryCanonical ((State.reset.writeBytes 0xFFE [0x00, 0xE1]).writeBytes 0xFFF [0xE0]) ∧
      ((State.reset.writeBytes 0xFFE [0x00, 0xE1]).writeBytes 0xFFF [0xE0]).mem = lastWord.mem := by
  exact ⟨rfl, rfl, rfl⟩

/-- DrawTogglesSpriteCells, DrawTwiceRestores, SecondDrawReportsCollision: N = 0, the last address that completes, the first
that faults, a covered cell and an uncovered one. -/
theorem witness_draw_clauses :
    (0 : RowCount).val = 0 ∧ ({ State.reset with I := 0xFF1 } : State).dataAddr ((15 : RowCount).val - 1) ≤ 0xFFF ∧
      0 < (1 : RowCount).val ∧ 0xFFF < ({ State.reset with I := 0x1000 } : State).dataAddr ((1 : RowCount).val - 1) ∧
      (0 : RegIndex) ≠ VF ∧ (1 : RegIndex) ≠ VF := by decide

theorem witness_SpriteCovers :
    SpriteCovers State.reset 63 31 1 0 31 ∧ ¬ SpriteCovers State.reset 63 31 1 4 31 := by
  refine ⟨⟨0, 1, by decide, by decide, by decide, by decide, by decide⟩, ?_⟩
  rintro ⟨r, c, hr, hc, hb, hx, -⟩
  have h0 : r = 0 := Nat.lt_one_iff.mp hr
  subst h0
  have h5 : c = 5 := by simp at hx; omega
  subst h5
  exact absurd hb (by decide)

/-- Log 7: on a cell that was set, the second of two equal draws reports no collision. -/
theorem test_second_draw_on_a_set_cell :
    gives (exec (.drw 0 1 1) { State.reset.writeBytes 0x300 [0x80] with I := 0x300, fb := cells [(0, 0)] })
      (fun t => t.getV 0xF == 1 && gives (exec (.drw 0 1 1) t) (fun u => shows [(0, 0)] [] u && u.getV 0xF == 0)) = true := by
  decide

theorem witness_KeySkipsComplete :
    (15 : KeyIndex).val = ((regs [(1, 15)]).getV 1).toNat ∧ 16 ≤ ((regs [(1, 16)]).getV 1).toNat := by decide

/-- A core that waits while the keys of a list are down and none was before. -/
def waitsFor (ks : List KeyIndex) : State := { State.reset with waiting := true, keys := pressed ks }

theorem witness_KeyWaitTransitions :
    State.reset.waiting = false ∧ (waitsFor []).waiting = true ∧ (∀ k, ¬ NewlyPressed (waitsFor []) k) ∧
    (waitsFor [15]).waiting = true ∧ NewlyPressed (waitsFor [15]) 15 ∧ (∀ j, NewlyPressed (waitsFor [15]) j → 15 ≤ j) := by
  simp only [NewlyPressed]; decide

theorem witness_ScriptIsPerformedInOrder : ({ State.reset with script := [.reset, .tick] } : State).script = .reset :: [.tick] := rfl

theorem witness_halted_clauses : State.reset.halted = false ∧ haltedCore.halted = true := by decide

/-- LoadCopiesImage: the longest image accepted, and each reason to refuse. -/
theorem witness_LoadCopiesImage :
    MemoryCanonical State.reset ∧ State.reset.halted = false ∧ State.reset.loadClosed = false ∧
      (List.replicate 3584 (0x12 : Byte)).length ≤ 3584 ∧ 3584 < (List.replicate 3585 (0x12 : Byte)).length ∧
      haltedCore.halted = true ∧ (afterAll [.load []] State.reset).loadClosed = true := by
  refine ⟨rfl, rfl, rfl, ?_, ?_, rfl, rfl⟩ <;> rw [List.length_replicate]; omega

theorem witness_ParkedProgramStays :
    Parked 0x200 (State.reset.withFetchWord 16 0x1200) ∧ (State.reset.withFetchWord 16 0x1200).halted = false := by
  refine ⟨⟨?_, ?_, ?_⟩, ?_⟩ <;> decide

/-- A core that waits for a key at 0x200, with a CYCLE to come. -/
def waitingCore : State :=
  { State.reset.withFetchWord 16 0xF30A with waiting := true, loadClosed := true, script := [.cycle 0] }

/-- StepKeepsWaitingAtKeyWait, WaitingKeepsPcAndInstruction and the other invariants hold of it, and it takes a step. -/
theorem witness_invariants :
    MemoryCanonical waitingCore ∧ StackPointerInRange waitingCore ∧ AddressesBounded waitingCore ∧
      WaitingAtKeyWait waitingCore ∧ FaultRecordSound waitingCore ∧
      gives (step waitingCore) (fun t => t.waiting && t.PC == waitingCore.PC) = true := by
  refine ⟨rfl, fun _ => by decide, ⟨by decide, by decide⟩, fun _ => ⟨rfl, rfl, 3, by decide⟩, ⟨rfl, fun h => ?_⟩, by decide⟩
  exact absurd h (by decide)

/-- The invariant of the fault record holds of a halted core too. -/
theorem witness_StepKeepsFaultRecordSound : FaultRecordSound haltedCore ∧ haltedCore.halted = true :=
  ⟨⟨⟨by decide, by decide, rfl⟩, fun _ => ⟨rfl, rfl⟩⟩, rfl⟩

end Sys2Proof.Tests
end

section
/-!
The frame of every operation: `UnchangedExcept` part by part, the parts each execute step may change, and the
inversion of a step into host transactions with the invariant principle it gives.
-/

namespace Sys2Proof.Machine

/-! ### `UnchangedExcept` -/

/-- A frame, part by part: how a proof builds one for a state that is written out. -/
theorem unchangedExcept_iff {ps : List Part} {s t : State} : UnchangedExcept ps s t ↔
    (.mem ∉ ps → ∀ a, t.readByte a = s.readByte a) ∧ (.V ∉ ps → ∀ r, t.getV r = s.getV r) ∧ (.I ∉ ps → t.I = s.I) ∧
    (.PC ∉ ps → t.PC = s.PC) ∧ (.stack ∉ ps → ∀ k : Fin 16, t.stack[k.val] = s.stack[k.val]) ∧
    (.SP ∉ ps → t.SP = s.SP) ∧ (.DT ∉ ps → t.DT = s.DT) ∧ (.ST ∉ ps → t.ST = s.ST) ∧
    (.fb ∉ ps → ∀ x y, t.fb.get x y = s.fb.get x y) ∧ (.keys ∉ ps → t.keys = s.keys) ∧
    (.prevKeys ∉ ps → t.prevKeys = s.prevKeys) ∧ (.waiting ∉ ps → t.waiting = s.waiting) ∧
    (.fault ∉ ps → t.fault = s.fault) ∧ (.loadClosed ∉ ps → t.loadClosed = s.loadClosed) ∧
    (.config ∉ ps → t.config = s.config) ∧ (.rnd ∉ ps → t.rnd = s.rnd) ∧ (.draws ∉ ps → t.draws = s.draws) ∧
    (.script ∉ ps → t.script = s.script) := by
  constructor
  · intro h
    exact ⟨h .mem, h .V, h .I, h .PC, h .stack, h .SP, h .DT, h .ST, h .fb, h .keys, h .prevKeys, h .waiting, h .fault,
      h .loadClosed, h .config, h .rnd, h .draws, h .script⟩
  · rintro ⟨_, _, _, _, _, _, _, _, _, _, _, _, _, _, _, _, _, _⟩ p
    cases p <;> assumption

/-! ### Execute steps -/

/-- The shape of an execute step that may fault: the fault alone, or the instruction's own effect. -/
theorem raise_or_next_cases {c : Bool} {i : Instr} {cause : FaultCause} {info : Word} {s a t : State}
    (h : (if c then raise i cause info s else .next a) = .next t) :
    (c = true ∧ t = s.raiseFault cause info (encode i)) ∨ (c = false ∧ t = a) := by
  cases c
  · exact .inr ⟨rfl, (Host.Outcome.next.inj h).symm⟩
  · exact .inl ⟨rfl, (Host.Outcome.next.inj h).symm⟩

theorem unchangedExcept_raiseFault (ps : List Part) (cause : FaultCause) (info op : Word) (s : State) :
    UnchangedExcept (.fault :: ps) s (s.raiseFault cause info op) := by
  simp [unchangedExcept_iff]

theorem unchangedExcept_raise_or_next {c : Bool} {i : Instr} {cause : FaultCause} {info : Word} {s a t : State}
    {ps : List Part} (h : (if c then raise i cause info s else .next a) = .next t)
    (ha : UnchangedExcept (.fault :: ps) s a) : UnchangedExcept (.fault :: ps) s t := by
  obtain ⟨-, rfl⟩ | ⟨-, rfl⟩ := raise_or_next_cases h
  · exact unchangedExcept_raiseFault ps cause info _ s
  · exact ha

theorem unchangedExcept_resultThenFlag_advance (x y : RegIndex) (res flg : Byte → Byte → Byte) (s : State) :
    UnchangedExcept [.fault, .PC, .V] s (resultThenFlag x y res flg s).advance := by
  obtain ⟨v, hv⟩ := resultThenFlag_frame x y res flg s
  simp [hv, unchangedExcept_iff, State.readByte]

theorem unchangedExcept_flagThenResult_advance (x y : RegIndex) (flg res : Byte → Byte → Byte) (s : State) :
    UnchangedExcept [.fault, .PC, .V] s (flagThenResult x y flg res s).advance := by
  obtain ⟨v, hv⟩ := flagThenResult_frame x y flg res s
  simp [hv, unchangedExcept_iff, State.readByte]

/-- The frame of every instruction, part by part: what its rule does not name stays, the fault record aside. -/
theorem exec_unchangedExcept {i : Instr} {s t : State} (h : exec i s = .next t) :
    UnchangedExcept (.fault :: mayChange i) s t := by
  cases i with
  | addReg x y => cases h; exact unchangedExcept_resultThenFlag_advance x y _ _ s
  | subReg x y | subnReg x y => cases h; exact unchangedExcept_flagThenResult_advance x y _ _ s
  | shrReg x y | shlReg x y => cases h; exact unchangedExcept_flagThenResult_advance x x _ _ s
  | ret | call nnn | drw x y n | ldBVx x | storeRegs x | loadRegs x =>
    exact unchangedExcept_raise_or_next h (by simp [unchangedExcept_iff, mayChange, State.readByte, State.getV])
  | skp x | sknp x =>
    simp only [exec, execSkp, execSknp] at h
    split at h <;> cases h
    · simp [unchangedExcept_iff, mayChange]
    · exact unchangedExcept_raiseFault _ _ _ _ s
  | ldVxKey x =>
    simp only [exec, execLdVxKey] at h
    split at h
    · split at h <;> cases h <;> simp [unchangedExcept_iff, mayChange, State.readByte, State.getV]
    · cases h; simp [unchangedExcept_iff, mayChange, State.readByte, State.getV]
  | _ => cases h; simp [unchangedExcept_iff, mayChange, State.readByte, State.getV]

theorem exec_config {i : Instr} {s t : State} (h : exec i s = .next t) : t.config = s.config :=
  exec_unchangedExcept h .config (by cases i <;> simp [mayChange])

/-! ### Transactions and steps -/

/-- What each host transaction leaves (R48). -/
theorem transact_cases {tr : Transaction} {s t : State} {r : Result} (h : transact tr s = .next (t, r)) :
    (tr = .reset ∧ t = s.afterReset) ∨ (∃ image, tr = .load image ∧ t = s.load image) ∨
    (∃ k, tr = .setKeys k ∧ t = s.setKeys k) ∨ (∃ rnd, tr = .cycle rnd ∧ cycle rnd s = .next t) ∨
    (tr = .tick ∧ t = s.tick) ∨ ((tr = .readFb ∨ tr = .readFault) ∧ t = s) := by
  cases tr with
  | cycle rnd =>
    simp only [transact] at h
    split at h <;> cases h
    next hc => exact .inr (.inr (.inr (.inl ⟨rnd, rfl, hc⟩)))
  | _ => cases h; simp

/-- A step is a CYCLE with a free draw when the script is empty, and else the script's first transaction (R45). -/
theorem step_cases {s t : State} (h : step s = .next t) :
    (s.script = [] ∧ s.halted = true ∧ t = s) ∨
    (s.script = [] ∧ s.halted = false ∧ cycle (Config.freeRnd s.draws) { s with draws := s.draws + 1 } = .next t) ∨
    (∃ tr rest r, s.script = tr :: rest ∧ transact tr { s with script := rest } = .next (t, r)) := by
  unfold step nextTransaction at h
  split at h
  next hs =>
    unfold freeCycle at h
    split at h
    next hh => cases h; exact .inl ⟨hs, hh, rfl⟩
    next hh => exact .inr (.inl ⟨hs, by simpa using hh, h⟩)
  next tr rest hs =>
    unfold stateOf at h
    split at h <;> cases h
    next r hr => exact .inr (.inr ⟨tr, rest, r, hs, hr⟩)

/-- The invariant principle: a property that does not look at the host's own data holds after a step if every transaction
keeps it. -/
theorem step_keeps {P : State → Prop} (hhost : ∀ s draws script, P s → P { s with draws := draws, script := script })
    (hreset : ∀ s, P s → P s.afterReset) (hload : ∀ s image, P s → P (s.load image))
    (hkeys : ∀ s k, P s → P (s.setKeys k)) (htick : ∀ s, P s → P s.tick)
    (hcycle : ∀ s t rnd, P s → cycle rnd s = .next t → P t) {s t : State} (hs : P s) (h : step s = .next t) : P t := by
  obtain ⟨-, -, rfl⟩ | ⟨-, -, hc⟩ | ⟨tr, rest, r, -, ht⟩ := step_cases h
  · exact hs
  · exact hcycle _ _ _ (hhost s _ s.script hs) hc
  · have hu := hhost s s.draws rest hs
    obtain ⟨-, rfl⟩ | ⟨image, -, rfl⟩ | ⟨k, -, rfl⟩ | ⟨rnd, -, hc⟩ | ⟨-, rfl⟩ | ⟨-, rfl⟩ := transact_cases ht
    · exact hreset _ hu
    · exact hload _ image hu
    · exact hkeys _ k hu
    · exact hcycle _ _ rnd hu hc
    · exact htick _ hu
    · exact hu

/-- The same for CYCLE: a property is kept if the cycle's start, a fault and every execute step keep it. -/
theorem cycle_keeps {P : State → Prop} (hbegin : ∀ s rnd, P s → P (s.beginCycle rnd))
    (hfault : ∀ s cause info op, P s → P (s.raiseFault cause info op))
    (hexec : ∀ i s t, P s → exec i s = .next t → P t) {s t : State} {rnd : Byte} (hs : P s)
    (h : cycle rnd s = .next t) : P t := by
  have hb := hbegin s rnd hs
  obtain ⟨-, hc⟩ | ⟨-, -, hc⟩ | ⟨op, -, -, -, -, hc⟩ | ⟨op, i, -, -, -, -, hc⟩ := cycle_cases rnd s <;> rw [hc] at h
  · cases h; exact hs
  · cases h; exact hfault _ _ _ _ hb
  · cases h; exact hfault _ _ _ _ hb
  · exact hexec i _ t hb h

theorem unchangedExcept_load (image : List Byte) (s : State) : UnchangedExcept [.mem, .loadClosed] s (s.load image) := by
  unfold State.load
  split <;> simp [unchangedExcept_iff, State.getV]

theorem unchangedExcept_setKeys (k : Keys) (s : State) : UnchangedExcept [.keys] s (s.setKeys k) := by
  unfold State.setKeys
  split <;> simp [unchangedExcept_iff, State.readByte, State.getV]

theorem unchangedExcept_tick (s : State) : UnchangedExcept [.DT, .ST] s s.tick := by
  unfold State.tick
  split <;> simp [unchangedExcept_iff, State.readByte, State.getV]

end Sys2Proof.Machine
end

section
/-!
The invariant of the stack pointer (spec/00_scope.md R7, spec/41_control_flow.md R120): under `wrap` SP is at most 15.
Only 00EE and 2NNN write SP, and nothing but a reset comes near the policy.
-/

namespace Sys2Proof.Machine

theorem StackPointerInRange.congr {s t : State} (hs : StackPointerInRange s) (hc : t.config = s.config)
    (hsp : t.SP = s.SP) : StackPointerInRange t := fun hw => by
  rw [hsp]
  exact hs (hc ▸ hw)

theorem StackPointerInRange.of_unchangedExcept {ps : List Part} {s t : State} (hs : StackPointerInRange s)
    (h : UnchangedExcept ps s t) (hc : .config ∉ ps) (hsp : .SP ∉ ps) : StackPointerInRange t :=
  hs.congr (h .config hc) (h .SP hsp)

theorem SP_mem_mayChange {i : Instr} (h : .SP ∈ mayChange i) : i = .ret ∨ ∃ nnn, i = .call nnn := by
  revert h
  cases i <;> simp [mayChange]

theorem exec_ret_SP {s t : State} (h : exec .ret s = .next t) : t.SP = s.SP ∨ t.SP = s.spAfterPop := by
  obtain ⟨-, rfl⟩ | ⟨-, rfl⟩ := raise_or_next_cases h
  · exact .inl rfl
  · exact .inr rfl

theorem exec_call_SP {s t : State} {nnn : Addr} (h : exec (.call nnn) s = .next t) :
    t.SP = s.SP ∨ t.SP = s.spAfterPush := by
  obtain ⟨-, rfl⟩ | ⟨-, rfl⟩ := raise_or_next_cases h
  · exact .inl rfl
  · exact .inr rfl

/-- SP after any instruction: kept, or moved by the stack controller. -/
theorem exec_SP_cases {i : Instr} {s t : State} (h : exec i s = .next t) :
    t.SP = s.SP ∨ t.SP = s.spAfterPush ∨ t.SP = s.spAfterPop := by
  by_cases hm : .SP ∈ mayChange i
  · obtain rfl | ⟨nnn, rfl⟩ := SP_mem_mayChange hm
    · exact (exec_ret_SP h).imp_right .inr
    · exact (exec_call_SP h).imp_right .inl
  · exact .inl (exec_unchangedExcept h .SP (by simpa using hm))

theorem exec_keeps_stackPointerInRange {i : Instr} {s t : State} (hs : StackPointerInRange s)
    (h : exec i s = .next t) : StackPointerInRange t := by
  have hc := exec_config h
  obtain hsp | hsp | hsp := exec_SP_cases h
  · exact hs.congr hc hsp
  · intro hw
    rw [hsp, State.spAfterPush_wrap (hc ▸ hw)]
    omega
  · intro hw
    rw [hsp, State.spAfterPop_wrap (hc ▸ hw)]
    omega

/-- Settles O56: of the transactions only RESET and CYCLE touch SP, and the stack controller reduces it modulo 16 under
`wrap`. -/
theorem stepKeepsStackPointerInRange : Obligations.StepKeepsStackPointerInRange := by
  unfold Obligations.StepKeepsStackPointerInRange
  intro s t hs h
  refine step_keeps (P := StackPointerInRange) ?host ?reset ?load ?keys ?tick ?cycle hs h
  case host => exact fun s _ _ hs => hs
  case reset => exact fun s _ _ => Nat.zero_le 15
  case load => exact fun s image hs => hs.of_unchangedExcept (unchangedExcept_load image s) (by decide) (by decide)
  case keys => exact fun s k hs => hs.of_unchangedExcept (unchangedExcept_setKeys k s) (by decide) (by decide)
  case tick => exact fun s hs => hs.of_unchangedExcept (unchangedExcept_tick s) (by decide) (by decide)
  case cycle =>
    exact fun s t rnd hs => cycle_keeps (fun _ _ hb => hb) (fun _ _ _ _ hf => hf)
      (fun _ _ _ => exec_keeps_stackPointerInRange) hs

end Sys2Proof.Machine
end

section
/-!
The fault of the execute step: `executeFault`, the spec's table (spec/60_exceptions.md R230, R231), is what `exec` raises,
and a fault raised at a fetched address leaves a consistent record. With the encoder as the decoder's inverse this gives
the invariant of the fault record.
-/

namespace Sys2Proof.Machine

/-! ### Decoding an encoded word -/

/-- The word decoder undoes the encoder, row by row of the opcode table (R82, R84–R88). -/
@[simp] theorem decodeWord_encode (i : Instr) : decodeWord (encode i) = some i := by
  cases i with
  | cls | ret => decide
  | ldReg x y | orReg x y | andReg x y | xorReg x y | addReg x y | subReg x y | shrReg x y | subnReg x y | shlReg x y =>
    simp [encode, decodeWord, decodeFamily8]
  | skp x | sknp x => simp [encode, decodeWord, decodeFamilyE]
  | ldVxDt x | ldVxKey x | ldDtVx x | ldStVx x | addIVx x | ldFVx x | ldBVx x | storeRegs x | loadRegs x =>
    simp [encode, decodeWord, decodeFamilyF]
  | _ => simp [encode, decodeWord]

/-! ### The execute step's fault -/

theorem resultThenFlag_fault (x y : RegIndex) (res flg : Byte → Byte → Byte) (s : State) :
    (resultThenFlag x y res flg s).fault = s.fault := by
  obtain ⟨v, hv⟩ := resultThenFlag_frame x y res flg s
  rw [hv]

theorem flagThenResult_fault (x y : RegIndex) (flg res : Byte → Byte → Byte) (s : State) :
    (flagThenResult x y flg res s).fault = s.fault := by
  obtain ⟨v, hv⟩ := flagThenResult_frame x y flg res s
  rw [hv]

theorem State.lowestOutOfRange_eq (s : State) : s.lowestOutOfRange = BitVec.ofNat 16 (max s.I.toNat 0x1000) := by
  rw [← s.lowestOutOfRange_toNat, BitVec.ofNat_toNat, BitVec.setWidth_eq]

/-- The table's row of MEM_RANGE in the model's terms (R63): what `executeFault` is, by computation, for an instruction
that reaches data addresses. -/
theorem memRangeRow_eq (i : Instr) (s : State) :
    (if 0 < dataBytes i ∧ 0x1000 ≤ s.I.toNat + (dataBytes i - 1) then
        some (FaultCause.memRange, BitVec.ofNat 16 (max s.I.toNat 0x1000))
      else none) =
      if s.outOfRange (dataBytes i) then some (.memRange, s.lowestOutOfRange) else none := by
  have hc : (0 < dataBytes i ∧ 0x1000 ≤ s.I.toNat + (dataBytes i - 1)) ↔ s.outOfRange (dataBytes i) = true := by
    rw [State.outOfRange_iff]
    omega
  simp only [hc, State.lowestOutOfRange_eq]

theorem executeFault_drw (x y : RegIndex) (n : RowCount) (s : State) : executeFault (.drw x y n) s =
    if s.outOfRange n.val then some (.memRange, s.lowestOutOfRange) else none := memRangeRow_eq (.drw x y n) s

theorem executeFault_ldBVx (x : RegIndex) (s : State) : executeFault (.ldBVx x) s =
    if s.outOfRange 3 then some (.memRange, s.lowestOutOfRange) else none := memRangeRow_eq (.ldBVx x) s

theorem executeFault_storeRegs (x : RegIndex) (s : State) : executeFault (.storeRegs x) s =
    if s.outOfRange (x.val + 1) then some (.memRange, s.lowestOutOfRange) else none := memRangeRow_eq (.storeRegs x) s

theorem executeFault_loadRegs (x : RegIndex) (s : State) : executeFault (.loadRegs x) s =
    if s.outOfRange (x.val + 1) then some (.memRange, s.lowestOutOfRange) else none := memRangeRow_eq (.loadRegs x) s

theorem executeFault_ret (s : State) :
    executeFault .ret s = if s.popFaults then some (.stackUnderflow, BitVec.ofNat 16 s.SP.val) else none := by
  simp only [executeFault, dataBytes, State.popFaults_iff]
  split_ifs <;> simp_all

theorem executeFault_call (nnn : Addr) (s : State) :
    executeFault (.call nnn) s = if s.pushFaults then some (.stackOverflow, BitVec.ofNat 16 s.SP.val) else none := by
  simp only [executeFault, dataBytes, State.pushFaults_iff]
  split_ifs <;> simp_all

theorem executeFault_skp (x : RegIndex) (s : State) : executeFault (.skp x) s =
    if 16 ≤ (s.getV x).toNat then some (.keyRange, zextByte (s.getV x)) else none := rfl

theorem executeFault_sknp (x : RegIndex) (s : State) : executeFault (.sknp x) s =
    if 16 ≤ (s.getV x).toNat then some (.keyRange, zextByte (s.getV x)) else none := rfl

/-- An execute step that raises no fault keeps the record; one that raises a fault does nothing else. -/
theorem fault_cases_of_raise_or_next {c : Bool} {i : Instr} {cause : FaultCause} {info : Word} {s a t : State}
    (h : (if c then raise i cause info s else .next a) = .next t) (ha : a.fault = s.fault)
    (he : executeFault i s = if c then some (cause, info) else none) :
    (executeFault i s = none ∧ t.fault = s.fault) ∨
    ∃ cause info, executeFault i s = some (cause, info) ∧ t = s.raiseFault cause info (encode i) := by
  obtain ⟨rfl, rfl⟩ | ⟨rfl, rfl⟩ := raise_or_next_cases h
  · exact .inr ⟨cause, info, he, rfl⟩
  · exact .inl ⟨he, ha⟩

/-- `exec` raises exactly the fault of the spec's table, and raising it is then all it does (R106, R230, R231). -/
theorem exec_fault_cases {i : Instr} {s t : State} (h : exec i s = .next t) :
    (executeFault i s = none ∧ t.fault = s.fault) ∨
    ∃ cause info, executeFault i s = some (cause, info) ∧ t = s.raiseFault cause info (encode i) := by
  cases i with
  | ret => exact fault_cases_of_raise_or_next h rfl (executeFault_ret s)
  | call nnn => exact fault_cases_of_raise_or_next h rfl (executeFault_call nnn s)
  | drw x y n => exact fault_cases_of_raise_or_next h rfl (executeFault_drw x y n s)
  | ldBVx x => exact fault_cases_of_raise_or_next h rfl (executeFault_ldBVx x s)
  | storeRegs x => exact fault_cases_of_raise_or_next h rfl (executeFault_storeRegs x s)
  | loadRegs x => exact fault_cases_of_raise_or_next h rfl (executeFault_loadRegs x s)
  | skp x | sknp x =>
    simp only [exec, execSkp, execSknp] at h
    simp only [executeFault_skp, executeFault_sknp]
    obtain hk | hk := Nat.lt_or_ge (s.getV x).toNat 16
    · rw [keyIndex?_some hk] at h
      cases h
      exact .inl ⟨if_neg (by omega), State.skipIf_fault _ _⟩
    · rw [keyIndex?_none hk] at h
      cases h
      exact .inr ⟨_, _, if_pos hk, rfl⟩
  | addReg x y => cases h; exact .inl ⟨rfl, resultThenFlag_fault ..⟩
  | subReg x y | subnReg x y | shrReg x y | shlReg x y => cases h; exact .inl ⟨rfl, flagThenResult_fault ..⟩
  | seByte x nn | sneByte x nn | seReg x y | sneReg x y => cases h; exact .inl ⟨rfl, State.skipIf_fault ..⟩
  | ldVxKey x =>
    refine .inl ⟨rfl, ?_⟩
    simp only [exec, execLdVxKey] at h
    split at h
    · split at h <;> cases h <;> rfl
    · cases h; rfl
  | _ => cases h; exact .inl ⟨rfl, rfl⟩

/-! ### The record of an execute step's fault -/

theorem State.lowestOutOfRange_ge (s : State) : 0x1000 ≤ s.lowestOutOfRange.toNat := by
  rw [State.lowestOutOfRange_toNat]
  exact Nat.le_max_right _ _

theorem zextByte_toNat (b : Byte) : (zextByte b).toNat = b.toNat := by
  simp only [zextByte, BitVec.toNat_setWidth]
  omega

/-- The record of an execute step's fault at an address that can be fetched from is consistent (R230, R232). -/
theorem executeFault_consistent {i : Instr} {s : State} {cause : FaultCause} {info : Word}
    (h : executeFault i s = some (cause, info)) (hp : s.PC.toNat ≤ 0x0FFE) :
    FaultRecord.Consistent ⟨cause, s.PC, encode i, info⟩ := by
  have hd := decodeWord_encode i
  cases i with
  | ret =>
    obtain ⟨hf, rfl, rfl⟩ := by simpa [executeFault_ret] using h
    have hsp := (s.popFaults_iff.mp hf).2
    exact ⟨hp, by simp [hsp], hd⟩
  | call nnn =>
    obtain ⟨hf, rfl, rfl⟩ := by simpa [executeFault_call] using h
    have hsp := (s.pushFaults_iff.mp hf).2
    exact ⟨hp, by simp [hsp], nnn, hd⟩
  | drw x y n =>
    obtain ⟨-, rfl, rfl⟩ := by simpa [executeFault_drw] using h
    exact ⟨hp, s.lowestOutOfRange_ge, x, y, n, .inl hd⟩
  | ldBVx x =>
    obtain ⟨-, rfl, rfl⟩ := by simpa [executeFault_ldBVx] using h
    exact ⟨hp, s.lowestOutOfRange_ge, x, 0, 0, .inr (.inl hd)⟩
  | storeRegs x =>
    obtain ⟨-, rfl, rfl⟩ := by simpa [executeFault_storeRegs] using h
    exact ⟨hp, s.lowestOutOfRange_ge, x, 0, 0, .inr (.inr (.inl hd))⟩
  | loadRegs x =>
    obtain ⟨-, rfl, rfl⟩ := by simpa [executeFault_loadRegs] using h
    exact ⟨hp, s.lowestOutOfRange_ge, x, 0, 0, .inr (.inr (.inr hd))⟩
  | skp x =>
    obtain ⟨hk, rfl, rfl⟩ := by simpa [executeFault_skp] using h
    exact ⟨hp, by rw [zextByte_toNat]; exact hk, by rw [zextByte_toNat]; omega, x, .inl hd⟩
  | sknp x =>
    obtain ⟨hk, rfl, rfl⟩ := by simpa [executeFault_sknp] using h
    exact ⟨hp, by rw [zextByte_toNat]; exact hk, by rw [zextByte_toNat]; omega, x, .inr hd⟩
  | _ => cases h

/-! ### The invariant -/

/-- Of a running core the invariant says only that the record is clear. -/
theorem faultRecordSound_of_running {s : State} (hc : s.fault.Consistent) (hh : s.halted = false) :
    FaultRecordSound s := ⟨hc, fun ht => absurd (hh ▸ ht) Bool.false_ne_true⟩

/-- A fault recorded with the load gate closed is sound as soon as its record is consistent: its `fault_pc` is PC. -/
theorem faultRecordSound_raiseFault {s : State} {cause : FaultCause} {info op : Word}
    (hc : FaultRecord.Consistent ⟨cause, s.PC, op, info⟩) (hl : s.loadClosed = true) :
    FaultRecordSound (s.raiseFault cause info op) := ⟨hc, fun _ => ⟨hl, rfl⟩⟩

theorem FaultRecordSound.congr {s t : State} (hs : FaultRecordSound s) (hf : t.fault = s.fault) (hp : t.PC = s.PC)
    (hl : s.loadClosed = true → t.loadClosed = true) : FaultRecordSound t := by
  obtain ⟨hc, hh⟩ := hs
  refine ⟨hf ▸ hc, fun ht => ?_⟩
  obtain ⟨hlc, hpc⟩ := hh (by rwa [State.halted, hf] at ht)
  exact ⟨hl hlc, by rw [hf, hp, hpc]⟩

theorem FaultRecordSound.of_unchangedExcept {ps : List Part} {s t : State} (hs : FaultRecordSound s)
    (h : UnchangedExcept ps s t) (hf : .fault ∉ ps) (hp : .PC ∉ ps) (hl : .loadClosed ∉ ps) : FaultRecordSound t :=
  hs.congr (h .fault hf) (h .PC hp) (fun hc => (h .loadClosed hl).trans hc)

theorem State.load_loadClosed {s : State} (image : List Byte) (h : s.loadClosed = true) :
    (s.load image).loadClosed = true := by
  rw [State.load, State.loadRefused, h]
  simpa using h

theorem exec_keeps_faultRecordSound {i : Instr} {s t : State} (hs : FaultRecordSound s) (hh : s.halted = false)
    (hl : s.loadClosed = true) (hp : s.PC.toNat ≤ 0x0FFE) (h : exec i s = .next t) : FaultRecordSound t := by
  obtain ⟨-, hf⟩ | ⟨cause, info, he, rfl⟩ := exec_fault_cases h
  · exact faultRecordSound_of_running (hf ▸ hs.1) (by rwa [State.halted, hf])
  · exact faultRecordSound_raiseFault (executeFault_consistent he hp) hl

theorem cycle_keeps_faultRecordSound {s t : State} {rnd : Byte} (hs : FaultRecordSound s)
    (h : cycle rnd s = .next t) : FaultRecordSound t := by
  obtain ⟨-, hc⟩ | ⟨-, hp, hc⟩ | ⟨op, -, hp, -, hd, hc⟩ | ⟨op, i, hh, hp, -, -, hc⟩ := cycle_cases rnd s <;> rw [hc] at h
  · cases h; exact hs
  · cases h; exact faultRecordSound_raiseFault ⟨hp, rfl, rfl⟩ rfl
  · cases h; exact faultRecordSound_raiseFault ⟨hp, hd, rfl⟩ rfl
  · exact exec_keeps_faultRecordSound (s := s.beginCycle rnd) (hs.congr rfl rfl fun _ => rfl) hh rfl hp h

/-- Settles O60: only a CYCLE of a running core writes the record, and the fetch, the decoder and the execute step each write
a consistent one at the PC they leave; RESET clears it. -/
theorem stepKeepsFaultRecordSound : Obligations.StepKeepsFaultRecordSound := by
  unfold Obligations.StepKeepsFaultRecordSound
  intro s t hs h
  refine step_keeps (P := FaultRecordSound) ?host ?reset ?load ?keys ?tick ?cycle hs h
  case host => exact fun s _ _ hs => hs.congr rfl rfl id
  case reset => exact fun s _ => faultRecordSound_of_running rfl rfl
  case load =>
    intro s image hs
    have hu := unchangedExcept_load image s
    exact hs.congr (hu .fault (by decide)) (hu .PC (by decide)) (State.load_loadClosed image)
  case keys =>
    exact fun s k hs => hs.of_unchangedExcept (unchangedExcept_setKeys k s) (by decide) (by decide) (by decide)
  case tick => exact fun s hs => hs.of_unchangedExcept (unchangedExcept_tick s) (by decide) (by decide) (by decide)
  case cycle => exact fun s t rnd hs => cycle_keeps_faultRecordSound hs

end Sys2Proof.Machine
end

section
/-!
What an instruction leaves alone within the parts it may change: registers, bytes of memory and stack entries
(spec/10_state.md R23, R24, R29; spec/20_memory.md R67, R69).
-/

namespace Sys2Proof.Machine

theorem regs_kept_raise_or_next {c : Bool} {i : Instr} {cause : FaultCause} {info : Word} {s a t : State} {r : RegIndex}
    (h : (if c then raise i cause info s else .next a) = .next t) (ha : a.getV r = s.getV r) : t.getV r = s.getV r := by
  obtain ⟨-, rfl⟩ | ⟨-, rfl⟩ := raise_or_next_cases h
  · rfl
  · exact ha

/-- R23, R24: a register an instruction is not named for is kept. -/
theorem exec_getV_of_not_mayWrite {i : Instr} {s t : State} {r : RegIndex} (h : exec i s = .next t)
    (hr : mayWrite i r = false) : t.getV r = s.getV r := by
  cases i with
  | ldByte x nn | addByte x nn | ldReg x y | orReg x y | andReg x y | xorReg x y | rndByte x nn | ldVxDt x =>
    cases h
    rw [State.getV_advance, State.getV_setV, if_neg (of_decide_eq_false hr)]
  | addReg x y =>
    cases h
    obtain ⟨hx, hf⟩ : r ≠ x ∧ r ≠ VF := by simpa [mayWrite] using hr
    rw [State.getV_advance]
    exact resultThenFlag_getV_other hx hf ..
  | subReg x y | shrReg x y | subnReg x y | shlReg x y =>
    cases h
    obtain ⟨hx, hf⟩ : r ≠ x ∧ r ≠ VF := by simpa [mayWrite] using hr
    rw [State.getV_advance]
    exact flagThenResult_getV_other hx hf ..
  | drw x y n =>
    refine regs_kept_raise_or_next h ?_
    rw [State.getV_advance, State.getV_setV, if_neg (of_decide_eq_false hr)]
    rfl
  | loadRegs x =>
    exact regs_kept_raise_or_next h ((s.loadedRegs_get x r).trans (if_neg (of_decide_eq_false hr)))
  | ldVxKey x =>
    simp only [exec, execLdVxKey] at h
    split at h
    · split at h <;> cases h
      · exact (s.getV_setV x r _).trans (if_neg (of_decide_eq_false hr))
      · rfl
    · cases h; rfl
  | _ => exact exec_unchangedExcept h .V (by simp [mayChange]) r

theorem mem_mem_mayChange {i : Instr} (h : .mem ∈ mayChange i) : ∃ x, i = .ldBVx x ∨ i = .storeRegs x := by
  revert h
  cases i <;> simp [mayChange]

theorem stack_mem_mayChange {i : Instr} (h : .stack ∈ mayChange i) : ∃ nnn, i = .call nnn := by
  revert h
  cases i <;> simp [mayChange]

/-- A store reaches the bytes it writes and no other (R69). -/
theorem bytesKeptOutside_writeBytes {s : State} (hm : MemoryCanonical s) (a : Nat) (bs : List Byte) :
    BytesKeptOutside a bs.length s (s.writeBytes a bs) := by
  intro b hb
  rw [State.readByte_writeBytes hm]
  split_ifs with hab
  · rw [List.getElem?_eq_none (by omega), Option.getD_none]
  · rfl

theorem bytesKeptOutside_raise_or_next {c : Bool} {i : Instr} {cause : FaultCause} {info : Word} {s u t : State}
    {a n : Nat} (h : (if c then raise i cause info s else .next u) = .next t) (hu : BytesKeptOutside a n s u) :
    BytesKeptOutside a n s t := by
  obtain ⟨-, rfl⟩ | ⟨-, rfl⟩ := raise_or_next_cases h
  · exact fun _ _ => rfl
  · exact hu

/-- R67, R69: the bytes of memory an instruction does not reach at I are kept. -/
theorem exec_bytesKeptOutside {i : Instr} {s t : State} (hm : MemoryCanonical s) (h : exec i s = .next t) :
    BytesKeptOutside (s.dataAddr 0) (dataBytes i) s t := by
  by_cases hi : .mem ∈ mayChange i
  · obtain ⟨x, rfl | rfl⟩ := mem_mem_mayChange hi
    · exact bytesKeptOutside_raise_or_next h (bytesKeptOutside_writeBytes hm _ (bcdDigits (s.getV x)))
    · have hk := bytesKeptOutside_writeBytes hm (s.dataAddr 0) (s.regsUpTo x)
      rw [State.regsUpTo_length] at hk
      exact bytesKeptOutside_raise_or_next h hk
  · exact fun b _ => exec_unchangedExcept h .mem (by simpa using hi) b

/-- R29: only the stack entry SP names may change. -/
theorem exec_stack_of_ne {i : Instr} {s t : State} {k : Fin 16} (h : exec i s = .next t)
    (hk : k ≠ stackIndex s.SP.val) : t.stack[k.val] = s.stack[k.val] := by
  by_cases hi : .stack ∈ mayChange i
  · obtain ⟨nnn, rfl⟩ := stack_mem_mayChange hi
    obtain ⟨-, rfl⟩ | ⟨-, rfl⟩ := raise_or_next_cases h
    · rfl
    · exact (s.stack_push s.PC k).trans (if_neg fun he => hk (Fin.ext he))
  · exact exec_unchangedExcept h .stack (by simpa using hi) k

/-- Only an instruction that meets its fault condition writes the fault record. -/
theorem exec_fault_of_executeFault_none {i : Instr} {s t : State} (h : exec i s = .next t)
    (hn : executeFault i s = none) : t.fault = s.fault := by
  obtain ⟨-, hf⟩ | ⟨cause, info, he, -⟩ := exec_fault_cases h
  · exact hf
  · rw [hn] at he; cases he

/-- Settles O15: form by form, each write goes to a register `mayWrite` names, and a fault writes none. -/
theorem generalRegisterWriters : Obligations.GeneralRegisterWriters := by
  unfold Obligations.GeneralRegisterWriters
  exact fun _ _ _ _ => exec_getV_of_not_mayWrite

/-- Settles O16: the frame part by part, with what is kept inside the parts that may change; the bytes rest on the store of a
list of known length, the stack entries on Push. -/
theorem frameOfEveryInstruction : Obligations.FrameOfEveryInstruction := by
  unfold Obligations.FrameOfEveryInstruction
  exact fun i s t h => ⟨exec_unchangedExcept h, exec_fault_of_executeFault_none h, fun hm => exec_bytesKeptOutside hm h,
    fun r hr => exec_getV_of_not_mayWrite h (by simpa using hr), fun k => exec_stack_of_ne h⟩

end Sys2Proof.Machine
end

section
/-!
Noninterference (spec/10_state.md R32, R35, R36; spec/40_cycle.md R107): an execute step that reads none of the wait state,
the sound timer and the random byte commutes with replacing them.
-/

namespace Sys2Proof.Machine

/-- The state with some of the parts replaced that at most one instruction reads or writes. -/
def State.withHidden (w : Option Bool) (p : Option Keys) (st rnd : Option Byte) (s : State) : State :=
  { s with waiting := w.getD s.waiting, prevKeys := p.getD s.prevKeys, ST := st.getD s.ST, rnd := rnd.getD s.rnd }

section
variable (w : Option Bool) (p : Option Keys) (st rnd : Option Byte) (s : State)

theorem State.withHidden_config : (s.withHidden w p st rnd).config = s.config := rfl

theorem State.skipIf_withHidden (c : Bool) :
    (s.withHidden w p st rnd).skipIf c = (s.skipIf c).withHidden w p st rnd := by
  cases c <;> rfl

theorem resultThenFlag_withHidden (x y : RegIndex) (res flg : Byte → Byte → Byte) :
    resultThenFlag x y res flg (s.withHidden w p st rnd) = (resultThenFlag x y res flg s).withHidden w p st rnd := by
  unfold resultThenFlag
  rw [State.withHidden_config]
  split <;> rfl

theorem flagThenResult_withHidden (x y : RegIndex) (flg res : Byte → Byte → Byte) :
    flagThenResult x y flg res (s.withHidden w p st rnd) = (flagThenResult x y flg res s).withHidden w p st rnd := by
  unfold flagThenResult
  rw [State.withHidden_config]
  split <;> rfl

end

/-- The two branches of a step that may fault, each taken to where `f` takes it. -/
theorem raise_or_next_map {f : State → State} {c : Bool} {i : Instr} {cause : FaultCause} {info : Word} {s a t : State}
    (h : (if c then raise i cause info s else .next a) = .next t)
    (hf : (f s).raiseFault cause info (encode i) = f (s.raiseFault cause info (encode i))) :
    (if c then raise i cause info (f s) else .next (f a)) = .next (f t) := by
  obtain ⟨rfl, rfl⟩ | ⟨rfl, rfl⟩ := raise_or_next_cases h
  · exact congrArg Host.Outcome.next hf
  · rfl

/-- R32, R35, R36, R107: replacing parts the instruction neither reads nor writes replaces them after it, and changes
nothing else. -/
theorem exec_withHidden {i : Instr} {s t : State} {w : Option Bool} {p : Option Keys} {st rnd : Option Byte}
    (h : exec i s = .next t) (hwait : (∀ x, i ≠ .ldVxKey x) ∨ (w = none ∧ p = none))
    (hst : (∀ x, i ≠ .ldStVx x) ∨ st = none) (hrnd : (∀ x nn, i ≠ .rndByte x nn) ∨ rnd = none) :
    exec i (s.withHidden w p st rnd) = .next (t.withHidden w p st rnd) := by
  cases i with
  | ldVxKey x =>
    obtain ⟨rfl, rfl⟩ := hwait.resolve_left fun hx => hx x rfl
    simp only [exec, execLdVxKey] at h ⊢
    split at h
    next hw =>
      split at h <;> cases h
      next k hk => simp [State.withHidden, State.setV, State.advance, hw, hk]
      next hk => simp [State.withHidden, hw, hk]
    next hw => cases h; simp [State.withHidden, hw]
  | ldStVx x =>
    obtain rfl := hst.resolve_left fun hx => hx x rfl
    cases h; rfl
  | rndByte x nn =>
    obtain rfl := hrnd.resolve_left fun hx => hx x nn rfl
    cases h; rfl
  | ret | call nnn | drw x y n | ldBVx x | storeRegs x | loadRegs x =>
    exact raise_or_next_map (f := State.withHidden w p st rnd) h rfl
  | skp x | sknp x =>
    simp only [exec, execSkp, execSknp] at h ⊢
    rw [show (s.withHidden w p st rnd).getV x = s.getV x from rfl]
    split at h <;> cases h
    · exact congrArg Host.Outcome.next (State.skipIf_withHidden ..)
    · rfl
  | addReg x y =>
    cases h
    exact congrArg (fun u => Host.Outcome.next u.advance) (resultThenFlag_withHidden ..)
  | subReg x y | subnReg x y | shrReg x y | shlReg x y =>
    cases h
    exact congrArg (fun u => Host.Outcome.next u.advance) (flagThenResult_withHidden ..)
  | seByte x nn | sneByte x nn | seReg x y | sneReg x y =>
    cases h
    exact congrArg Host.Outcome.next (State.skipIf_withHidden ..)
  | _ => cases h; rfl

/-- Settles O18: each clause replaces one part or two by `withHidden` and leaves the others as they are. -/
theorem hiddenStateIsNotRead : Obligations.HiddenStateIsNotRead := by
  unfold Obligations.HiddenStateIsNotRead
  intro i s t h
  refine ⟨fun w p hi => ?_, fun b hi => ?_, fun b hi => ?_⟩
  · exact exec_withHidden (w := some w) (p := some p) h (.inl hi) (.inr rfl) (.inr rfl)
  · exact exec_withHidden (st := some b) h (.inr ⟨rfl, rfl⟩) (.inl hi) (.inr rfl)
  · exact exec_withHidden (rnd := some b) h (.inr ⟨rfl, rfl⟩) (.inr rfl) (.inl hi)

end Sys2Proof.Machine
end

section
/-!
Who changes which part of the state, transaction by transaction (spec/10_state.md R45, R48), and what RESET leaves
(R43, spec/70_reset_and_hazards.md R260).
-/

namespace Sys2Proof.Machine

/-! ### Everything answers -/

theorem raise_or_next_answers (c : Bool) (i : Instr) (cause : FaultCause) (info : Word) (s a : State) :
    ∃ t, (if c then raise i cause info s else .next a) = Host.Outcome.next t := by
  cases c <;> exact ⟨_, rfl⟩

theorem exec_answers (i : Instr) (s : State) : ∃ t, exec i s = .next t := by
  cases i with
  | ret | call nnn | drw x y n | ldBVx x | storeRegs x | loadRegs x => exact raise_or_next_answers ..
  | skp x | sknp x =>
    simp only [exec, execSkp, execSknp]
    split <;> exact ⟨_, rfl⟩
  | ldVxKey x =>
    simp only [exec, execLdVxKey]
    split
    · split <;> exact ⟨_, rfl⟩
    · exact ⟨_, rfl⟩
  | _ => exact ⟨_, rfl⟩

theorem cycle_answers (rnd : Byte) (s : State) : ∃ t, cycle rnd s = .next t := by
  obtain ⟨-, hc⟩ | ⟨-, -, hc⟩ | ⟨_, -, -, -, -, hc⟩ | ⟨_, i, -, -, -, -, hc⟩ := cycle_cases rnd s
  · exact ⟨_, hc⟩
  · exact ⟨_, hc⟩
  · exact ⟨_, hc⟩
  · exact hc ▸ exec_answers i _

theorem transact_answers (tr : Transaction) (s : State) : ∃ t r, transact tr s = .next (t, r) := by
  cases tr with
  | cycle rnd =>
    obtain ⟨t, ht⟩ := cycle_answers rnd s
    exact ⟨t, cycleStatus s t, by rw [transact, ht]⟩
  | _ => exact ⟨_, _, rfl⟩

/-! ### Which transaction changes which part -/

theorem Unchanged.refl (p : Part) (s : State) : Unchanged p s s := by
  cases p with
  | mem | V | stack => exact fun _ => rfl
  | fb => exact fun _ _ => rfl
  | _ => exact rfl

theorem Unchanged.trans {p : Part} {s t u : State} (h : Unchanged p s t) (h' : Unchanged p t u) : Unchanged p s u := by
  cases p with
  | mem | V | stack => exact fun k => (h' k).trans (h k)
  | fb => exact fun x y => (h' x y).trans (h x y)
  | _ => exact Eq.trans h' h

theorem unchangedExcept_beginCycle (rnd : Byte) (s : State) :
    UnchangedExcept [.fault, .loadClosed, .rnd] s (s.beginCycle rnd) := by
  simp [unchangedExcept_iff, State.getV]

theorem unchangedExcept_beginCycle_raiseFault (rnd : Byte) (cause : FaultCause) (info op : Word) (s : State) :
    UnchangedExcept [.fault, .loadClosed, .rnd] s ((s.beginCycle rnd).raiseFault cause info op) := by
  simp [unchangedExcept_iff, State.getV]

theorem unchanged_afterReset (s : State) {p : Part} (hp : p ∈ [Part.config, .rnd, .draws, .script]) :
    Unchanged p s s.afterReset := by
  revert hp
  cases p <;> simp [Unchanged]

/-- A part that a CYCLE changes is one its start or its fault entry writes, or one the fetched instruction may change. -/
theorem cycle_changes {rnd : Byte} {s t : State} {p : Part} (h : cycle rnd s = .next t) (hp : ¬ Unchanged p s t) :
    p ∈ [Part.fault, .loadClosed, .rnd] ∨ ∃ i, s.fetchedInstr = some i ∧ p ∈ mayChange i := by
  by_cases hw : p ∈ [Part.fault, .loadClosed, .rnd]
  · exact .inl hw
  obtain ⟨-, hc⟩ | ⟨-, -, hc⟩ | ⟨op, -, -, -, -, hc⟩ | ⟨op, i, -, -, hf, hd, hc⟩ := cycle_cases rnd s <;> rw [hc] at h
  · cases h; exact absurd (Unchanged.refl p s) hp
  · cases h; exact absurd (unchangedExcept_beginCycle_raiseFault rnd _ _ _ s p hw) hp
  · cases h; exact absurd (unchangedExcept_beginCycle_raiseFault rnd _ _ _ s p hw) hp
  · refine .inr ⟨i, by rw [State.fetchedInstr, hf, Option.bind_some, hd], ?_⟩
    by_contra hi
    have he : p ∉ Part.fault :: mayChange i := by simp_all
    exact hp ((unchangedExcept_beginCycle rnd s p hw).trans (exec_unchangedExcept h p he))

/-- Which transaction may change which part (R45, R48). -/
theorem transact_changes {tr : Transaction} {s t : State} {r : Result} {p : Part} (h : transact tr s = .next (t, r))
    (hp : ¬ Unchanged p s t) :
    (tr = .reset ∧ p ∉ [Part.config, .rnd, .draws, .script]) ∨
    (∃ image, tr = .load image ∧ p ∈ [Part.mem, .loadClosed]) ∨ (∃ k, tr = .setKeys k ∧ p ∈ [Part.keys]) ∨
    (tr = .tick ∧ p ∈ [Part.DT, .ST]) ∨
    ∃ rnd, tr = .cycle rnd ∧
      (p ∈ [Part.fault, .loadClosed, .rnd] ∨ ∃ i, s.fetchedInstr = some i ∧ p ∈ mayChange i) := by
  obtain ⟨rfl, rfl⟩ | ⟨image, rfl, rfl⟩ | ⟨k, rfl, rfl⟩ | ⟨rnd, rfl, hc⟩ | ⟨rfl, rfl⟩ | ⟨-, rfl⟩ := transact_cases h
  · exact .inl ⟨rfl, fun hm => hp (unchanged_afterReset s hm)⟩
  · exact .inr (.inl ⟨image, rfl, by_contra fun hm => hp (unchangedExcept_load image s p hm)⟩)
  · exact .inr (.inr (.inl ⟨k, rfl, by_contra fun hm => hp (unchangedExcept_setKeys k s p hm)⟩))
  · exact .inr (.inr (.inr (.inr ⟨rnd, rfl, cycle_changes hc hp⟩)))
  · exact .inr (.inr (.inr (.inl ⟨rfl, by_contra fun hm => hp (unchangedExcept_tick s p hm)⟩)))
  · exact absurd (Unchanged.refl p _) hp

theorem DT_mem_mayChange {i : Instr} (h : .DT ∈ mayChange i) : ∃ x, i = .ldDtVx x := by
  revert h
  cases i <;> simp [mayChange]

theorem ST_mem_mayChange {i : Instr} (h : .ST ∈ mayChange i) : ∃ x, i = .ldStVx x := by
  revert h
  cases i <;> simp [mayChange]

theorem fb_mem_mayChange {i : Instr} (h : .fb ∈ mayChange i) : i = .cls ∨ ∃ x y n, i = .drw x y n := by
  revert h
  cases i <;> simp [mayChange]

/-- The parts no instruction changes: the keys, which are the host's, and the model's own. -/
theorem not_mem_mayChange {p : Part} (hp : p ∈ [Part.keys, .config, .script]) (i : Instr) : p ∉ mayChange i := by
  revert hp
  cases i <;> cases p <;> simp [mayChange]

/-- Settles O19: `transact_changes` for each part, with the instructions that list the part in `mayChange`. -/
theorem onlyNamedTransactionsChange : Obligations.OnlyNamedTransactionsChange := by
  unfold Obligations.OnlyNamedTransactionsChange
  intro tr s t r h hr
  refine ⟨?mem, ?DT, ?ST, ?fb, ?keys, ?stack⟩
  case mem =>
    rintro ⟨a, ha⟩
    obtain ⟨image, rfl⟩ | ⟨⟨rnd, rfl⟩, i, hf, hi⟩ : (∃ image, tr = .load image) ∨
        (∃ rnd, tr = .cycle rnd) ∧ ∃ i, s.fetchedInstr = some i ∧ .mem ∈ mayChange i := by
      simpa [hr] using transact_changes (p := .mem) h fun hu => ha (hu a)
    · exact .inl ⟨image, rfl⟩
    · obtain ⟨x, rfl | rfl⟩ := mem_mem_mayChange hi
      · exact .inr ⟨rnd, x, rfl, .inl hf⟩
      · exact .inr ⟨rnd, x, rfl, .inr hf⟩
  case DT =>
    intro hne
    obtain rfl | ⟨⟨rnd, rfl⟩, i, hf, hi⟩ : tr = .tick ∨
        (∃ rnd, tr = .cycle rnd) ∧ ∃ i, s.fetchedInstr = some i ∧ .DT ∈ mayChange i := by
      simpa [hr] using transact_changes (p := .DT) h hne
    · exact .inl rfl
    · obtain ⟨x, rfl⟩ := DT_mem_mayChange hi
      exact .inr ⟨rnd, x, rfl, hf⟩
  case ST =>
    intro hne
    obtain rfl | ⟨⟨rnd, rfl⟩, i, hf, hi⟩ : tr = .tick ∨
        (∃ rnd, tr = .cycle rnd) ∧ ∃ i, s.fetchedInstr = some i ∧ .ST ∈ mayChange i := by
      simpa [hr] using transact_changes (p := .ST) h hne
    · exact .inl rfl
    · obtain ⟨x, rfl⟩ := ST_mem_mayChange hi
      exact .inr ⟨rnd, x, rfl, hf⟩
  case fb =>
    intro hne
    obtain ⟨⟨rnd, rfl⟩, i, hf, hi⟩ :
        (∃ rnd, tr = .cycle rnd) ∧ ∃ i, s.fetchedInstr = some i ∧ .fb ∈ mayChange i := by
      simpa [hr] using transact_changes (p := .fb) h fun hu => hne (Framebuffer.ext_get hu)
    obtain rfl | ⟨x, y, n, rfl⟩ := fb_mem_mayChange hi
    · exact ⟨rnd, rfl, .inl hf⟩
    · exact ⟨rnd, rfl, .inr ⟨x, y, n, hf⟩⟩
  case keys =>
    intro hne
    simpa [hr, not_mem_mayChange] using transact_changes (p := .keys) h hne
  case stack =>
    intro hne
    obtain ⟨⟨rnd, rfl⟩, i, hf, hi⟩ :
        (∃ rnd, tr = .cycle rnd) ∧ ∃ i, s.fetchedInstr = some i ∧ .stack ∈ mayChange i := by
      simpa [hr] using transact_changes (p := .stack) h fun hu => hne (Vector.ext fun k hk => hu ⟨k, hk⟩)
    obtain ⟨nnn, rfl⟩ := stack_mem_mayChange hi
    exact ⟨rnd, nnn, rfl, hf⟩

/-- No transaction touches the rest of the script or the parameters. -/
theorem transact_script_config {tr : Transaction} {s t : State} {r : Result} (h : transact tr s = .next (t, r)) :
    t.script = s.script ∧ t.config = s.config := by
  constructor <;> by_contra hne
  · simpa [not_mem_mayChange] using transact_changes (p := .script) h hne
  · simpa [not_mem_mayChange] using transact_changes (p := .config) h hne

theorem step_of_script {s : State} {tr : Transaction} {rest : List Transaction} (h : s.script = tr :: rest) :
    step s = stateOf (transact tr { s with script := rest }) := by
  rw [step, nextTransaction, h]

/-- Settles O48: every transaction answers, and none may change the script or the parameters. -/
theorem scriptIsPerformedInOrder : Obligations.ScriptIsPerformedInOrder := by
  unfold Obligations.ScriptIsPerformedInOrder
  intro s tr rest hs
  obtain ⟨t, r, ht⟩ := transact_answers tr { s with script := rest }
  obtain ⟨hscript, hconfig⟩ := transact_script_config ht
  exact ⟨t, r, ht, by rw [step_of_script hs, ht, stateOf], hscript, hconfig⟩

/-! ### The state RESET leaves -/

theorem State.readByte_afterReset (s : State) (a : Nat) :
    s.afterReset.readByte a = Memory.background s.config.font a := State.readByte_resetWith s.config a

theorem State.getV_afterReset (s : State) (r : RegIndex) : s.afterReset.getV r = 0 := Vector.getElem_replicate _

/-- Settles O52: memory lists nothing after RESET, so that every byte reads as its background. -/
theorem resetSetsEverything : Obligations.ResetSetsEverything := by
  unfold Obligations.ResetSetsEverything
  intro s
  refine ⟨s.afterReset, rfl, fun a => ?font, fun a ha _ => ?zero, s.getV_afterReset, rfl, rfl,
    fun _ => Vector.getElem_replicate _, rfl, rfl, rfl, Framebuffer.get_blank,
    fun _ => Vector.getElem_replicate _, fun _ => Vector.getElem_replicate _, rfl, rfl, rfl, rfl⟩
  case font => exact (s.readByte_afterReset a).trans (dif_pos a.isLt)
  case zero => exact (s.readByte_afterReset a).trans (dif_neg (by omega))

theorem State.resetWith_addressesBounded (c : Config) : AddressesBounded (State.resetWith c) := by
  refine ⟨(by decide : (0x200#16).toNat ≤ 0x10FE), fun k => ?_⟩
  rw [show (State.resetWith c).stack[k.val] = 0 from Vector.getElem_replicate _]
  exact Nat.zero_le _

/-- Settles O54, with the bounds of PC and of the stack entries read off R43's values. -/
theorem resetMeetsInvariants : Obligations.ResetMeetsInvariants := by
  unfold Obligations.ResetMeetsInvariants
  exact fun c => ⟨State.resetWith_canonical c, fun _ => Nat.zero_le 15, State.resetWith_addressesBounded c,
    fun hw => absurd hw Bool.false_ne_true, faultRecordSound_of_running rfl rfl⟩

end Sys2Proof.Machine
end

section
/-!
The decoder on the bytes the encoder writes (spec/30_encoding.md R80, R82, R83; spec/20_memory.md R64).
-/

namespace Sys2Proof.Machine

theorem decode_encodeBytes_append (i : Instr) (rest : List Byte) : decode (encodeBytes i ++ rest) = .ok (i, rest) := by
  have h := decode_two_bytes (encode i) rest
  rwa [decodeWord_encode] at h

/-- The table's numbering of a word's bits is the word's own, so that its bytes are those of the word (R64). -/
theorem tableBytes_toNat (op : Word) : tableBytes 16 op.toNat = [highByte op, lowByte op] := by
  rw [tableBytes, Nat.mod_eq_of_lt op.isLt, BitVec.ofNat_toNat, BitVec.setWidth_eq]

theorem decodeTableWord_encode (i : Instr) : decodeTableWord 16 (encode i).toNat = some i := by
  have h : decode (tableBytes 16 (encode i).toNat) = .ok (i, []) := by
    rw [tableBytes_toNat]
    exact decode_encodeBytes_append i []
  rw [decodeTableWord, h]

/-- Settles O2: on two bytes the decoder is the word decoder, which undoes the encoder form by form. -/
theorem decodeEncodeRoundTrip : Obligations.DecodeEncodeRoundTrip := by
  unfold Obligations.DecodeEncodeRoundTrip
  exact fun i rest _ => ⟨decode_encodeBytes_append i rest, decodeTableWord_encode i⟩

end Sys2Proof.Machine
end

section
/-!
The canonical form of memory (spec/20_memory.md R60–R63): it is determined by what its addresses read as, and every step
keeps it, because only LOAD, FX33 and FX55 write memory and each checks its range first.
-/

namespace Sys2Proof.Machine

/-! ### Canonical memories are determined by their reads -/

theorem Memory.mem_of_lookup_eq_some {m : Memory} {a : Nat} {v : Byte} (h : Memory.lookup m a = some v) :
    (a, v) ∈ m := by
  induction m with
  | nil => cases h
  | cons c m ih =>
    obtain ⟨k, w⟩ := c
    simp only [Memory.lookup] at h
    split_ifs at h with hk
    · cases h
      exact hk ▸ List.mem_cons_self
    · exact List.mem_cons_of_mem _ (ih h)

/-- In canonical form an address is listed exactly when it reads as something else than its reset contents. -/
theorem Memory.lookup_eq_of_wf {font : Font} {m : Memory} (h : Memory.wf font m = true) (a : Nat) :
    Memory.lookup m a =
      if Memory.read font m a = Memory.background font a then none else some (Memory.read font m a) := by
  cases hl : Memory.lookup m a with
  | none => simp [Memory.read, hl]
  | some v =>
    have hv : v ≠ Memory.background font a := ((Memory.wf_iff.mp h).2 _ (Memory.mem_of_lookup_eq_some hl)).2
    simp [Memory.read, hl, hv]

/-- A rising list's head address is the lowest one listed. -/
theorem Memory.head_le_of_lookup_eq {k j : Nat} {v w : Byte} {m n : Memory} (hm : Memory.risingFrom (k + 1) m = true)
    (h : ∀ a, Memory.lookup ((k, v) :: m) a = Memory.lookup ((j, w) :: n) a) : k ≤ j := by
  by_contra hlt
  have hj := h j
  rw [Memory.lookup, if_neg (by omega), Memory.lookup_eq_none_of_risingFrom hm (by omega)] at hj
  simp [Memory.lookup] at hj

/-- Rising lists that list the same byte for every address are equal. -/
theorem Memory.eq_of_lookup_eq {m n : Memory} {lo lo' : Nat} (hm : Memory.risingFrom lo m = true)
    (hn : Memory.risingFrom lo' n = true) (h : ∀ a, Memory.lookup m a = Memory.lookup n a) : m = n := by
  induction m generalizing n lo lo' with
  | nil =>
    cases n with
    | nil => rfl
    | cons d n => simpa [Memory.lookup] using h d.1
  | cons c m ih =>
    obtain ⟨k, v⟩ := c
    cases n with
    | nil => simpa [Memory.lookup] using h k
    | cons d n =>
      obtain ⟨j, w⟩ := d
      simp only [Memory.risingFrom, Bool.and_eq_true] at hm hn
      obtain ⟨-, hm⟩ := hm
      obtain ⟨-, hn⟩ := hn
      have hk : k = j :=
        le_antisymm (Memory.head_le_of_lookup_eq hm h) (Memory.head_le_of_lookup_eq hn fun a => (h a).symm)
      subst hk
      have hv : v = w := by simpa [Memory.lookup] using h k
      have htail : ∀ a, Memory.lookup m a = Memory.lookup n a := by
        intro a
        obtain ha | ha := Nat.lt_or_ge k a
        · simpa [Memory.lookup, ha.ne] using h a
        · rw [Memory.lookup_eq_none_of_risingFrom hm (by omega), Memory.lookup_eq_none_of_risingFrom hn (by omega)]
      rw [hv, ih hm hn htail]

/-- Settles O39: the reads of a canonical list give its lookups, and a rising list is its lookups. -/
theorem equalReadsEqualMemories : Obligations.EqualReadsEqualMemories := by
  unfold Obligations.EqualReadsEqualMemories
  intro s t hs ht hfont hread
  refine Memory.eq_of_lookup_eq hs.rising ht.rising fun a => ?_
  have ha : Memory.read s.config.font s.mem a = Memory.read t.config.font t.mem a := hread a
  rw [Memory.lookup_eq_of_wf hs, Memory.lookup_eq_of_wf ht, ha, hfont]

/-! ### Every step keeps the canonical form -/

theorem MemoryCanonical.congr {s t : State} (hs : MemoryCanonical s) (hm : t.mem = s.mem) (hc : t.config = s.config) :
    MemoryCanonical t := by
  rw [MemoryCanonical, hm, hc]
  exact hs

theorem resultThenFlag_mem (x y : RegIndex) (res flg : Byte → Byte → Byte) (s : State) :
    (resultThenFlag x y res flg s).mem = s.mem := by
  obtain ⟨v, hv⟩ := resultThenFlag_frame x y res flg s
  rw [hv]

theorem flagThenResult_mem (x y : RegIndex) (flg res : Byte → Byte → Byte) (s : State) :
    (flagThenResult x y flg res s).mem = s.mem := by
  obtain ⟨v, hv⟩ := flagThenResult_frame x y flg res s
  rw [hv]

theorem mem_eq_of_raise_or_next {c : Bool} {i : Instr} {cause : FaultCause} {info : Word} {s a t : State}
    (h : (if c then raise i cause info s else .next a) = .next t) (ha : a.mem = s.mem) : t.mem = s.mem := by
  obtain ⟨-, rfl⟩ | ⟨-, rfl⟩ := raise_or_next_cases h
  · rfl
  · exact ha

theorem State.dataAddr_zero_add_le {s : State} {n : Nat} (hn : 0 < n) (h : s.outOfRange n = false) :
    s.dataAddr 0 + n ≤ 0x1000 := by
  rw [State.outOfRange_eq_false_iff] at h
  rw [State.dataAddr]
  omega

/-- The shape of a store: nothing written, or all its bytes after the check of their range (R63). -/
theorem mem_cases_of_raise_or_store {n : Nat} {i : Instr} {s a t : State} {bs : List Byte} (hbs : bs.length = n)
    (hn : 0 < n) (h : (if s.outOfRange n then raise i .memRange s.lowestOutOfRange s else .next a) = .next t)
    (ha : a.mem = (s.writeBytes (s.dataAddr 0) bs).mem) :
    t.mem = s.mem ∨
    ∃ bs : List Byte, s.dataAddr 0 + bs.length ≤ 0x1000 ∧ t.mem = (s.writeBytes (s.dataAddr 0) bs).mem := by
  obtain ⟨-, rfl⟩ | ⟨hr, rfl⟩ := raise_or_next_cases h
  · exact .inl rfl
  · exact .inr ⟨bs, hbs ▸ State.dataAddr_zero_add_le hn hr, ha⟩

/-- Memory after any instruction: kept as a list, or written from I on inside the 4096 bytes (R62, R63, R67). -/
theorem exec_mem_cases {i : Instr} {s t : State} (h : exec i s = .next t) :
    t.mem = s.mem ∨
    ∃ bs : List Byte, s.dataAddr 0 + bs.length ≤ 0x1000 ∧ t.mem = (s.writeBytes (s.dataAddr 0) bs).mem := by
  cases i with
  | ldBVx x => exact mem_cases_of_raise_or_store (n := 3) (bs := bcdDigits (s.getV x)) rfl (by decide) h rfl
  | storeRegs x => exact mem_cases_of_raise_or_store (s.regsUpTo_length x) (Nat.succ_pos _) h rfl
  | ret | call nnn | drw x y n | loadRegs x => exact .inl (mem_eq_of_raise_or_next h rfl)
  | addReg x y => cases h; exact .inl (resultThenFlag_mem ..)
  | subReg x y | subnReg x y | shrReg x y | shlReg x y => cases h; exact .inl (flagThenResult_mem ..)
  | seByte x nn | sneByte x nn | seReg x y | sneReg x y => cases h; exact .inl (State.skipIf_mem ..)
  | skp x | sknp x =>
    simp only [exec, execSkp, execSknp] at h
    split at h <;> cases h
    · exact .inl (State.skipIf_mem ..)
    · exact .inl rfl
  | ldVxKey x =>
    simp only [exec, execLdVxKey] at h
    split at h
    · split at h <;> cases h <;> exact .inl rfl
    · cases h; exact .inl rfl
  | _ => cases h; exact .inl rfl

theorem exec_keeps_memoryCanonical {i : Instr} {s t : State} (hs : MemoryCanonical s) (h : exec i s = .next t) :
    MemoryCanonical t := by
  have hc := exec_config h
  obtain hm | ⟨bs, hbs, hm⟩ := exec_mem_cases h
  · exact hs.congr hm hc
  · exact (State.writeBytes_canonical hs hbs).congr hm hc

/-- LOAD writes at most 3584 bytes from 0x200 on, which end at 0x1000 (R263). -/
theorem State.load_canonical {s : State} (image : List Byte) (hs : MemoryCanonical s) :
    MemoryCanonical (s.load image) := by
  unfold State.load
  split
  · exact hs
  next hr =>
    obtain ⟨-, hlen⟩ : (s.halted = false ∧ s.loadClosed = false) ∧ image.length ≤ 3584 := by
      simpa [State.loadRefused] using hr
    exact (State.writeBytes_canonical (a := 0x200) (bs := image) hs (by omega)).congr rfl rfl

theorem State.setKeys_mem (k : Keys) (s : State) : (s.setKeys k).mem = s.mem := by
  unfold State.setKeys
  split <;> rfl

theorem State.tick_mem (s : State) : s.tick.mem = s.mem := by
  unfold State.tick
  split <;> rfl

/-- Settles O55: stores and LOAD write inside the 4096 bytes, RESET empties the list; nothing else writes memory. -/
theorem stepKeepsMemoryCanonical : Obligations.StepKeepsMemoryCanonical := by
  unfold Obligations.StepKeepsMemoryCanonical
  intro s t hs h
  refine step_keeps (P := MemoryCanonical) ?host ?reset ?load ?keys ?tick ?cycle hs h
  case host => exact fun s _ _ hs => hs
  case reset => exact fun s _ => s.afterReset_canonical
  case load => exact fun s image hs => State.load_canonical image hs
  case keys => exact fun s k hs => hs.congr (s.setKeys_mem k) (unchangedExcept_setKeys k s .config (by decide))
  case tick => exact fun s hs => hs.congr s.tick_mem (unchangedExcept_tick s .config (by decide))
  case cycle =>
    exact fun s t rnd hs => cycle_keeps (fun _ _ hb => hb) (fun _ _ _ _ hf => hf)
      (fun _ _ _ => exec_keeps_memoryCanonical) hs

end Sys2Proof.Machine
end

section
/-!
Data accesses at I (spec/20_memory.md R63, R77): the MEM_RANGE of an address outside memory, and what FX55 stores as the
next reads find it.
-/

namespace Sys2Proof.Machine

theorem executeFault_of_outOfRange {i : Instr} {s : State} {k : Nat} (hk : k < dataBytes i)
    (ha : 0x1000 ≤ s.I.toNat + k) : executeFault i s = some (.memRange, BitVec.ofNat 16 (max s.I.toNat 0x1000)) :=
  if_pos ⟨by omega, by omega⟩

theorem exec_of_executeFault {i : Instr} {s : State} {cause : FaultCause} {info : Word}
    (he : executeFault i s = some (cause, info)) : exec i s = .next (s.raiseFault cause info (encode i)) := by
  obtain ⟨t, ht⟩ := exec_answers i s
  obtain ⟨hn, -⟩ | ⟨cause', info', he', rfl⟩ := exec_fault_cases ht
  · rw [he] at hn
    cases hn
  · rw [he] at he'
    cases he'
    exact ht

/-- Settles O13: the lowest bad address is max(I, 0x1000), the k-th data address for k = max(I, 0x1000) − I. -/
theorem dataAddressFaults : Obligations.DataAddressFaults := by
  unfold Obligations.DataAddressFaults
  rintro i s ⟨k, hk, ha⟩
  have hlow : s.dataAddr (max s.I.toNat 0x1000 - s.I.toNat) = max s.I.toNat 0x1000 := by
    rw [State.dataAddr]
    omega
  refine ⟨max s.I.toNat 0x1000 - s.I.toNat, by omega, by omega, fun j _ hj => ?_, ?_⟩
  · rw [hlow]
    rw [State.dataAddr] at hj ⊢
    omega
  · rw [hlow]
    exact exec_of_executeFault (executeFault_of_outOfRange hk ha)

/-- R174: FX55 whose last address lies in memory stores. -/
theorem exec_storeRegs_of_inRange {s : State} {x : RegIndex} (h : s.dataAddr x.val ≤ 0xFFF) :
    exec (.storeRegs x) s = .next { s.writeBytes (s.dataAddr 0) (s.regsUpTo x) with I := s.indexPast x }.advance := by
  have hr : s.outOfRange (x.val + 1) = false := by
    rw [State.outOfRange_eq_false_iff]
    rw [State.dataAddr] at h
    omega
  rw [exec, execStoreRegs, hr, if_neg Bool.false_ne_true]

/-- R174, R69: `V[k]` is at I + k after FX55. -/
theorem readByte_exec_storeRegs {s t : State} {x k : RegIndex} (hm : MemoryCanonical s) (h : s.dataAddr x.val ≤ 0xFFF)
    (ht : exec (.storeRegs x) s = .next t) (hk : k ≤ x) : t.readByte (s.dataAddr k.val) = s.getV k := by
  rw [exec_storeRegs_of_inRange h] at ht
  cases ht
  calc (s.writeBytes (s.dataAddr 0) (s.regsUpTo x)).readByte (s.dataAddr k.val)
      = ((s.regsUpTo x)[k.val]?).getD (s.readByte (s.dataAddr k.val)) := by
        simp [State.readByte_writeBytes hm, State.dataAddr]
    _ = s.getV k := by rw [State.regsUpTo_get, if_pos (Fin.le_def.mp hk), Option.getD_some]

/-- Settles O38: the fetch reads the bytes at I + k and I + k + 1, where FX55 put V[k] and V[k + 1]. -/
theorem storedBytesAreFetchedNext : Obligations.StoredBytesAreFetchedNext := by
  unfold Obligations.StoredBytesAreFetchedNext
  intro s x k j hm hx hk hj
  obtain ⟨t, ht⟩ := exec_answers (.storeRegs x) s
  refine ⟨t, ht, fun u hmem hconfig hpc => ?_⟩
  have hkx : k.val < x.val := hk
  have haddr : s.dataAddr j.val = u.PC.toNat + 1 := by
    rw [hpc, State.dataAddr, State.dataAddr]
    omega
  have hhi : u.readByte u.PC.toNat = s.getV k := by
    rw [t.readByte_congr hmem hconfig, hpc]
    exact readByte_exec_storeRegs hm hx ht hk.le
  have hlo : u.readByte (u.PC.toNat + 1) = s.getV j := by
    rw [t.readByte_congr hmem hconfig, ← haddr]
    exact readByte_exec_storeRegs hm hx ht (Fin.le_def.mpr (by omega))
  have hle : u.PC.toNat ≤ 0x0FFE := by
    rw [State.dataAddr] at hx haddr
    omega
  exact ⟨_, State.fetch_of_le hle, by rw [hhi, hlo, wordOfBytes_toNat]⟩

end Sys2Proof.Machine
end

section
/-!
The decoder against the formats and against the opcode table (spec/30_encoding.md R80–R92): a decoded instruction keeps
every field of its word, the words of a row of the table are the encodings of the row's instructions, and the sub-dispatch
of a family reads the nibbles below F.
-/

namespace Sys2Proof.Machine

/-! ### A word from its family and the fields a format keeps -/

section
variable {op : Word} {f : BitVec 4} (hf : fieldF op = f.toNat)
include hf

theorem familyBits_of_fieldF : familyBits op = f :=
  BitVec.eq_of_toNat_eq ((familyBits_toNat op).trans hf)

theorem wordA_of_fieldF : wordA f (fieldNNN op) = op := by
  rw [← familyBits_of_fieldF hf, wordA_fields]

theorem wordXK_of_fieldF : wordXK f (fieldX op) (fieldNN op) = op := by
  rw [← familyBits_of_fieldF hf, wordXK_fields]

theorem wordXYN_of_fieldF : wordXYN f (fieldX op) (fieldY op) (fieldN op) = op := by
  rw [← familyBits_of_fieldF hf, wordXYN_fields]

theorem wordXK_of_function {b : Byte} (hb : (fieldNN op).toNat = b.toNat) : wordXK f (fieldX op) b = op := by
  rw [← BitVec.eq_of_toNat_eq hb, wordXK_of_fieldF hf]

theorem wordXYN_of_function {n : Fin 16} (hn : (fieldN op).val = n.val) : wordXYN f (fieldX op) (fieldY op) n = op := by
  rw [← Fin.ext hn, wordXYN_of_fieldF hf]

end

/-! ### The encoder undoes the decoder -/

theorem encode_of_decodeFamily0 {op : Word} {i : Instr} (h : decodeFamily0 op = some i) : encode i = op := by
  unfold decodeFamily0 at h
  split_ifs at h with hcls hret <;> cases h
  · exact hcls.symm
  · exact hret.symm

theorem encode_of_decodeFamily8 {op : Word} {i : Instr} (hf : fieldF op = 0x8) (h : decodeFamily8 op = some i) :
    encode i = op := by
  unfold decodeFamily8 at h
  split at h <;> cases h <;> exact wordXYN_of_function hf ‹_›

theorem encode_of_decodeFamilyE {op : Word} {i : Instr} (hf : fieldF op = 0xE) (h : decodeFamilyE op = some i) :
    encode i = op := by
  unfold decodeFamilyE at h
  split at h <;> cases h <;> exact wordXK_of_function hf ‹_›

theorem encode_of_decodeFamilyF {op : Word} {i : Instr} (hf : fieldF op = 0xF) (h : decodeFamilyF op = some i) :
    encode i = op := by
  unfold decodeFamilyF at h
  split at h <;> cases h <;> exact wordXK_of_function hf ‹_›

/-- The alternative `h_k` of `decodeWord`'s match is family k − 1; each is closed by its format (R82). -/
theorem encode_of_decodeWord {op : Word} {i : Instr} (h : decodeWord op = some i) : encode i = op := by
  unfold decodeWord at h
  split at h
  case h_1 => exact encode_of_decodeFamily0 h
  case h_9 hf => exact encode_of_decodeFamily8 hf h
  case h_15 hf => exact encode_of_decodeFamilyE hf h
  case h_16 hf => exact encode_of_decodeFamilyF hf h
  case h_6 hf | h_10 hf =>
    split_ifs at h with hn
    cases h
    exact wordXYN_of_function hf hn
  case h_2 hf | h_3 hf | h_11 hf | h_12 hf =>
    cases h
    exact wordA_of_fieldF hf
  case h_4 hf | h_5 hf | h_7 hf | h_8 hf | h_13 hf =>
    cases h
    exact wordXK_of_fieldF hf
  case h_14 hf =>
    cases h
    exact wordXYN_of_fieldF hf
  case h_17 => cases h

/-- Settles O3: the encoder puts back the family and the fields, which are all of the word's bits. -/
theorem encodeDecodeRoundTrip : Obligations.EncodeDecodeRoundTrip := by
  unfold Obligations.EncodeDecodeRoundTrip
  exact fun _ _ => encode_of_decodeWord

/-! ### The words of a row of the opcode table -/

/-- The words of the row are encodings of instructions of the row: the converse of `Laws.EncodeMatchesRow.Statement`. -/
def RowIsEncoded (r : OpcodeRow) : Prop := ∀ op, r.holds op = true → ∃ i, i.mnemonic = r.mnemonic ∧ encode i = op

theorem fieldF_of_and_mask_family {op : Word} {f : BitVec 4} (h : op &&& 0xF000 = wordA f 0) : fieldF op = f.toNat := by
  rw [← wordA_fields op, wordA_and_mask] at h
  rw [← familyBits_toNat, ← fieldF_wordA f 0, ← h, fieldF_wordA]

theorem rowIsEncoded_wordXK_function {m : String} {f : BitVec 4} {b : Byte} (i : RegIndex → Instr)
    (hm : ∀ x, (i x).mnemonic = m) (he : ∀ x, encode (i x) = wordXK f x b) :
    RowIsEncoded ⟨m, 0xF0FF, wordXK f 0 b⟩ := by
  intro op h
  have hop : wordXK (familyBits op) 0 (fieldNN op) = wordXK f 0 b := by
    rw [← wordXK_and_mask_byte _ (fieldX op), wordXK_fields]
    exact of_decide_eq_true h
  have hf : fieldF op = f.toNat := by
    rw [← familyBits_toNat, ← fieldF_wordXK f 0 b, ← hop, fieldF_wordXK]
  have hb : fieldNN op = b := by
    rw [← fieldNN_wordXK f 0 b, ← hop, fieldNN_wordXK]
  exact ⟨i (fieldX op), hm _, (he _).trans (wordXK_of_function hf (congrArg _ hb))⟩

theorem rowIsEncoded_wordXYN_function {m : String} {f : BitVec 4} {n : Fin 16} (i : RegIndex → RegIndex → Instr)
    (hm : ∀ x y, (i x y).mnemonic = m) (he : ∀ x y, encode (i x y) = wordXYN f x y n) :
    RowIsEncoded ⟨m, 0xF00F, wordXYN f 0 0 n⟩ := by
  intro op h
  have hop : wordXYN (familyBits op) 0 0 (fieldN op) = wordXYN f 0 0 n := by
    rw [← wordXYN_and_mask_nibble _ (fieldX op) (fieldY op), wordXYN_fields]
    exact of_decide_eq_true h
  have hf : fieldF op = f.toNat := by
    rw [← familyBits_toNat, ← fieldF_wordXYN f 0 0 n, ← hop, fieldF_wordXYN]
  have hn : fieldN op = n := by
    rw [← fieldN_wordXYN f 0 0 n, ← hop, fieldN_wordXYN]
  exact ⟨i (fieldX op) (fieldY op), hm _ _, (he _ _).trans (wordXYN_of_function hf (congrArg _ hn))⟩

theorem rowIsEncoded_wordA {m : String} {f : BitVec 4} (i : Addr → Instr) (hm : ∀ nnn, (i nnn).mnemonic = m)
    (he : ∀ nnn, encode (i nnn) = wordA f nnn) : RowIsEncoded ⟨m, 0xF000, wordA f 0⟩ := fun _ h =>
  ⟨_, hm _, (he _).trans (wordA_of_fieldF (fieldF_of_and_mask_family (of_decide_eq_true h)))⟩

theorem rowIsEncoded_wordXK {m : String} {f : BitVec 4} (i : RegIndex → Byte → Instr)
    (hm : ∀ x nn, (i x nn).mnemonic = m) (he : ∀ x nn, encode (i x nn) = wordXK f x nn) :
    RowIsEncoded ⟨m, 0xF000, wordA f 0⟩ := fun _ h =>
  ⟨_, hm _ _, (he _ _).trans (wordXK_of_fieldF (fieldF_of_and_mask_family (of_decide_eq_true h)))⟩

theorem rowIsEncoded_wordXYN {m : String} {f : BitVec 4} (i : RegIndex → RegIndex → RowCount → Instr)
    (hm : ∀ x y n, (i x y n).mnemonic = m) (he : ∀ x y n, encode (i x y n) = wordXYN f x y n) :
    RowIsEncoded ⟨m, 0xF000, wordA f 0⟩ := fun _ h =>
  ⟨_, hm _ _ _, (he _ _ _).trans (wordXYN_of_fieldF (fieldF_of_and_mask_family (of_decide_eq_true h)))⟩

theorem rowIsEncoded_word (i : Instr) : RowIsEncoded ⟨i.mnemonic, 0xFFFF, encode i⟩ := fun op h =>
  ⟨i, rfl, (of_decide_eq_true h).symm.trans (BitVec.and_allOnes (x := op))⟩

theorem rowIsEncoded_of_mem_opcodeTableLow : ∀ r ∈ opcodeTableLow, RowIsEncoded r := by
  simp only [opcodeTableLow, List.cons_append, List.nil_append, List.forall_mem_cons]
  exact ⟨rowIsEncoded_word .cls, rowIsEncoded_word .ret,
    rowIsEncoded_wordA .jp (fun _ => rfl) (fun _ => rfl),
    rowIsEncoded_wordA .call (fun _ => rfl) (fun _ => rfl),
    rowIsEncoded_wordXK .seByte (fun _ _ => rfl) (fun _ _ => rfl),
    rowIsEncoded_wordXK .sneByte (fun _ _ => rfl) (fun _ _ => rfl),
    rowIsEncoded_wordXYN_function .seReg (fun _ _ => rfl) (fun _ _ => rfl),
    rowIsEncoded_wordXK .ldByte (fun _ _ => rfl) (fun _ _ => rfl),
    rowIsEncoded_wordXK .addByte (fun _ _ => rfl) (fun _ _ => rfl), List.forall_mem_nil _⟩

theorem rowIsEncoded_of_mem_opcodeTableAlu : ∀ r ∈ opcodeTableAlu, RowIsEncoded r := by
  simp only [opcodeTableAlu, List.cons_append, List.nil_append, List.forall_mem_cons]
  exact ⟨rowIsEncoded_wordXYN_function .ldReg (fun _ _ => rfl) (fun _ _ => rfl),
    rowIsEncoded_wordXYN_function .orReg (fun _ _ => rfl) (fun _ _ => rfl),
    rowIsEncoded_wordXYN_function .andReg (fun _ _ => rfl) (fun _ _ => rfl),
    rowIsEncoded_wordXYN_function .xorReg (fun _ _ => rfl) (fun _ _ => rfl),
    rowIsEncoded_wordXYN_function .addReg (fun _ _ => rfl) (fun _ _ => rfl),
    rowIsEncoded_wordXYN_function .subReg (fun _ _ => rfl) (fun _ _ => rfl),
    rowIsEncoded_wordXYN_function .shrReg (fun _ _ => rfl) (fun _ _ => rfl),
    rowIsEncoded_wordXYN_function .subnReg (fun _ _ => rfl) (fun _ _ => rfl),
    rowIsEncoded_wordXYN_function .shlReg (fun _ _ => rfl) (fun _ _ => rfl),
    rowIsEncoded_wordXYN_function .sneReg (fun _ _ => rfl) (fun _ _ => rfl), List.forall_mem_nil _⟩

theorem rowIsEncoded_of_mem_opcodeTableHigh : ∀ r ∈ opcodeTableHigh, RowIsEncoded r := by
  simp only [opcodeTableHigh, List.cons_append, List.nil_append, List.forall_mem_cons]
  exact ⟨rowIsEncoded_wordA .ldI (fun _ => rfl) (fun _ => rfl),
    rowIsEncoded_wordA .jpV0 (fun _ => rfl) (fun _ => rfl),
    rowIsEncoded_wordXK .rndByte (fun _ _ => rfl) (fun _ _ => rfl),
    rowIsEncoded_wordXYN .drw (fun _ _ _ => rfl) (fun _ _ _ => rfl),
    rowIsEncoded_wordXK_function .skp (fun _ => rfl) (fun _ => rfl),
    rowIsEncoded_wordXK_function .sknp (fun _ => rfl) (fun _ => rfl),
    rowIsEncoded_wordXK_function .ldVxDt (fun _ => rfl) (fun _ => rfl),
    rowIsEncoded_wordXK_function .ldVxKey (fun _ => rfl) (fun _ => rfl),
    rowIsEncoded_wordXK_function .ldDtVx (fun _ => rfl) (fun _ => rfl),
    rowIsEncoded_wordXK_function .ldStVx (fun _ => rfl) (fun _ => rfl),
    rowIsEncoded_wordXK_function .addIVx (fun _ => rfl) (fun _ => rfl),
    rowIsEncoded_wordXK_function .ldFVx (fun _ => rfl) (fun _ => rfl),
    rowIsEncoded_wordXK_function .ldBVx (fun _ => rfl) (fun _ => rfl),
    rowIsEncoded_wordXK_function .storeRegs (fun _ => rfl) (fun _ => rfl),
    rowIsEncoded_wordXK_function .loadRegs (fun _ => rfl) (fun _ => rfl), List.forall_mem_nil _⟩

theorem rowIsEncoded_of_mem {r : OpcodeRow} (hr : r ∈ opcodeTable) : RowIsEncoded r := by
  rw [opcodeTable, List.mem_append, List.mem_append] at hr
  obtain (h | h) | h := hr
  · exact rowIsEncoded_of_mem_opcodeTableLow r h
  · exact rowIsEncoded_of_mem_opcodeTableAlu r h
  · exact rowIsEncoded_of_mem_opcodeTableHigh r h

open Laws.EncodeMatchesRow in
/-- The `EncodeMatchesRow` family, assembled. -/
theorem encodeMatchesRow : ∀ i, Statement i
  | .cls => cls | .ret => ret | .jp _ => jp _ | .call _ => call _ | .seByte _ _ => seByte _ _
  | .sneByte _ _ => sneByte _ _ | .seReg _ _ => seReg _ _ | .ldByte _ _ => ldByte _ _ | .addByte _ _ => addByte _ _
  | .ldReg _ _ => ldReg _ _ | .orReg _ _ => orReg _ _ | .andReg _ _ => andReg _ _ | .xorReg _ _ => xorReg _ _
  | .addReg _ _ => addReg _ _ | .subReg _ _ => subReg _ _ | .shrReg _ _ => shrReg _ _ | .subnReg _ _ => subnReg _ _
  | .shlReg _ _ => shlReg _ _ | .sneReg _ _ => sneReg _ _ | .ldI _ => ldI _ | .jpV0 _ => jpV0 _
  | .rndByte _ _ => rndByte _ _ | .drw _ _ _ => drw _ _ _ | .skp _ => skp _ | .sknp _ => sknp _
  | .ldVxDt _ => ldVxDt _ | .ldVxKey _ => ldVxKey _ | .ldDtVx _ => ldDtVx _ | .ldStVx _ => ldStVx _
  | .addIVx _ => addIVx _ | .ldFVx _ => ldFVx _ | .ldBVx _ => ldBVx _ | .storeRegs _ => storeRegs _
  | .loadRegs _ => loadRegs _

/-- No two rows of the table share a mnemonic. -/
theorem opcodeTable_mnemonics_nodup : (opcodeTable.map (·.mnemonic)).Nodup := by decide

theorem decodeWord_of_holds {r : OpcodeRow} {op : Word} (hr : r ∈ opcodeTable) (h : r.holds op = true) :
    ∃ i, decodeWord op = some i ∧ i.mnemonic = r.mnemonic := by
  obtain ⟨i, hm, rfl⟩ := rowIsEncoded_of_mem hr op h
  exact ⟨i, decodeWord_encode i, hm⟩

theorem holds_of_decodeWord {op : Word} {i : Instr} (h : decodeWord op = some i) :
    ∃ r ∈ opcodeTable, r.mnemonic = i.mnemonic ∧ r.holds op = true :=
  encode_of_decodeWord h ▸ encodeMatchesRow i

theorem decodeWord_isSome_iff (op : Word) : (decodeWord op).isSome = true ↔ legalWord op = true := by
  rw [Option.isSome_iff_exists, legalWord, List.any_eq_true]
  constructor
  · rintro ⟨i, hi⟩
    obtain ⟨r, hr, -, h⟩ := holds_of_decodeWord hi
    exact ⟨r, hr, h⟩
  · rintro ⟨r, hr, h⟩
    obtain ⟨i, hi, -⟩ := decodeWord_of_holds hr h
    exact ⟨i, hi⟩

theorem holds_iff_mnemonic_eq {op : Word} {i : Instr} {r : OpcodeRow} (hi : decodeWord op = some i)
    (hr : r ∈ opcodeTable) : r.holds op = true ↔ r.mnemonic = i.mnemonic := by
  constructor
  · intro h
    obtain ⟨j, hj, hm⟩ := decodeWord_of_holds hr h
    rw [Option.some.inj (hi.symm.trans hj), hm]
  · intro hm
    obtain ⟨q, hq, hqm, h⟩ := holds_of_decodeWord hi
    rwa [List.inj_on_of_nodup_map opcodeTable_mnemonics_nodup hr hq (hm.trans hqm.symm)]

/-- Settles O4: the words of a row are the encodings of the row's instructions, and a row is known by its mnemonic. -/
theorem decodeFollowsOpcodeTable : Obligations.DecodeFollowsOpcodeTable := by
  unfold Obligations.DecodeFollowsOpcodeTable
  exact fun op => ⟨decodeWord_isSome_iff op, fun _ hi _ hr => holds_iff_mnemonic_eq hi hr⟩

/-! ### The sub-dispatch of a family -/

theorem decodeWord_opcodeOf (f : BitVec 4) (x y n : Fin 16) :
    decodeWord (opcodeOf f.toNat x y n) = decodeWord (wordXYN f x y n) := by
  congr 1
  apply word_ext
  rw [opcodeOf, BitVec.toNat_ofNat, wordXYN_toNat]
  omega

theorem fieldNN_wordXYN_toNat (f : BitVec 4) (x y n : Fin 16) :
    (fieldNN (wordXYN f x y n)).toNat = y.val * 16 + n.val := by
  rw [fieldNN_toNat, wordXYN_toNat]
  omega

theorem functionByte_eq_iff {y n : Fin 16} (b : Nat) (p q : Fin 16) (hb : p.val * 16 + q.val = b) :
    y.val * 16 + n.val = b ↔ y = p ∧ n = q := by
  rw [Fin.ext_iff, Fin.ext_iff]
  omega

/-- R85. -/
theorem decodeWord_family0 {w : Nat} (hw : w < 0x1000) : decodeWord (BitVec.ofNat 16 w) =
    if w = 0x00E0 then some .cls else if w = 0x00EE then some .ret else none := by
  have hn : (BitVec.ofNat 16 w).toNat = w := by rw [BitVec.toNat_ofNat]; omega
  have hf : fieldF (BitVec.ofNat 16 w) = 0 := by rw [fieldF_eq, hn]; omega
  have hcls : BitVec.ofNat 16 w = 0x00E0 ↔ w = 0x00E0 := by rw [BitVec.toNat_eq, hn]; rfl
  have hret : BitVec.ofNat 16 w = 0x00EE ↔ w = 0x00EE := by rw [BitVec.toNat_eq, hn]; rfl
  simp only [decodeWord, hf, decodeFamily0, hcls, hret]

/-- R89, family 5. -/
theorem decodeWord_family5 (x y n : Fin 16) :
    decodeWord (opcodeOf 0x5 x y n) = if n = 0 then some (.seReg x y) else none :=
  (decodeWord_opcodeOf 0x5 x y n).trans (by simp [decodeWord])

/-- R89, family 9. -/
theorem decodeWord_family9 (x y n : Fin 16) :
    decodeWord (opcodeOf 0x9 x y n) = if n = 0 then some (.sneReg x y) else none :=
  (decodeWord_opcodeOf 0x9 x y n).trans (by simp [decodeWord])

/-- R86: a function nibble with which an instruction is encoded gives that instruction. -/
theorem decodeWord_family8_of_encode {x y n : Fin 16} {i : Instr} (h : encode i = wordXYN 0x8 x y n) :
    decodeWord (opcodeOf 0x8 x y n) = some i :=
  (decodeWord_opcodeOf 0x8 x y n).trans (by rw [← h, decodeWord_encode])

/-- R86: the other seven function nibbles are illegal. -/
theorem decodeWord_family8_illegal (x y : Fin 16) {n : Fin 16}
    (hn : n ∈ ([0x8, 0x9, 0xA, 0xB, 0xC, 0xD, 0xF] : List (Fin 16))) : decodeWord (opcodeOf 0x8 x y n) = none :=
  (decodeWord_opcodeOf 0x8 x y n).trans (by fin_cases hn <;> simp [decodeWord, decodeFamily8])

/-- R87 on the whole function byte. -/
theorem decodeFamilyE_eq_ite (op : Word) : decodeFamilyE op =
    if (fieldNN op).toNat = 0x9E then some (.skp (fieldX op))
    else if (fieldNN op).toNat = 0xA1 then some (.sknp (fieldX op)) else none := by
  unfold decodeFamilyE
  split <;> simp_all

/-- R88 on the whole function byte. -/
theorem decodeFamilyF_eq_ite (op : Word) : decodeFamilyF op =
    if (fieldNN op).toNat = 0x07 then some (.ldVxDt (fieldX op))
    else if (fieldNN op).toNat = 0x0A then some (.ldVxKey (fieldX op))
    else if (fieldNN op).toNat = 0x15 then some (.ldDtVx (fieldX op))
    else if (fieldNN op).toNat = 0x18 then some (.ldStVx (fieldX op))
    else if (fieldNN op).toNat = 0x1E then some (.addIVx (fieldX op))
    else if (fieldNN op).toNat = 0x29 then some (.ldFVx (fieldX op))
    else if (fieldNN op).toNat = 0x33 then some (.ldBVx (fieldX op))
    else if (fieldNN op).toNat = 0x55 then some (.storeRegs (fieldX op))
    else if (fieldNN op).toNat = 0x65 then some (.loadRegs (fieldX op)) else none := by
  unfold decodeFamilyF
  split <;> simp_all

/-- R87. -/
theorem decodeWord_familyE (x y n : Fin 16) : decodeWord (opcodeOf 0xE x y n) =
    if y = 0x9 ∧ n = 0xE then some (.skp x) else if y = 0xA ∧ n = 0x1 then some (.sknp x) else none := by
  have hd : decodeWord (opcodeOf 0xE x y n) = decodeFamilyE (wordXYN 0xE x y n) :=
    (decodeWord_opcodeOf 0xE x y n).trans (by simp [decodeWord])
  rw [hd, decodeFamilyE_eq_ite]
  simp only [fieldNN_wordXYN_toNat, fieldX_wordXYN, functionByte_eq_iff 0x9E 0x9 0xE rfl,
    functionByte_eq_iff 0xA1 0xA 0x1 rfl]

/-- R88. -/
theorem decodeWord_familyF (x y n : Fin 16) : decodeWord (opcodeOf 0xF x y n) =
    if y = 0x0 ∧ n = 0x7 then some (.ldVxDt x) else if y = 0x0 ∧ n = 0xA then some (.ldVxKey x)
    else if y = 0x1 ∧ n = 0x5 then some (.ldDtVx x) else if y = 0x1 ∧ n = 0x8 then some (.ldStVx x)
    else if y = 0x1 ∧ n = 0xE then some (.addIVx x) else if y = 0x2 ∧ n = 0x9 then some (.ldFVx x)
    else if y = 0x3 ∧ n = 0x3 then some (.ldBVx x) else if y = 0x5 ∧ n = 0x5 then some (.storeRegs x)
    else if y = 0x6 ∧ n = 0x5 then some (.loadRegs x) else none := by
  have hd : decodeWord (opcodeOf 0xF x y n) = decodeFamilyF (wordXYN 0xF x y n) :=
    (decodeWord_opcodeOf 0xF x y n).trans (by simp [decodeWord])
  rw [hd, decodeFamilyF_eq_ite]
  simp only [fieldNN_wordXYN_toNat, fieldX_wordXYN, functionByte_eq_iff 0x07 0x0 0x7 rfl,
    functionByte_eq_iff 0x0A 0x0 0xA rfl, functionByte_eq_iff 0x15 0x1 0x5 rfl, functionByte_eq_iff 0x18 0x1 0x8 rfl,
    functionByte_eq_iff 0x1E 0x1 0xE rfl, functionByte_eq_iff 0x29 0x2 0x9 rfl, functionByte_eq_iff 0x33 0x3 0x3 rfl,
    functionByte_eq_iff 0x55 0x5 0x5 rfl, functionByte_eq_iff 0x65 0x6 0x5 rfl]

/-- Settles O5: family by family, on the nibbles or the function byte of the word. -/
theorem familySubDispatch : Obligations.FamilySubDispatch := by
  unfold Obligations.FamilySubDispatch
  refine ⟨fun w hw => decodeWord_family0 hw, fun x y n =>
    ⟨decodeWord_family5 x y n, decodeWord_family9 x y n, decodeWord_family8_illegal x y⟩, fun x y => ?_,
    decodeWord_familyE, decodeWord_familyF⟩
  exact ⟨decodeWord_family8_of_encode (n := 0x0) rfl, decodeWord_family8_of_encode (n := 0x1) rfl,
    decodeWord_family8_of_encode (n := 0x2) rfl, decodeWord_family8_of_encode (n := 0x3) rfl,
    decodeWord_family8_of_encode (n := 0x4) rfl, decodeWord_family8_of_encode (n := 0x5) rfl,
    decodeWord_family8_of_encode (n := 0x6) rfl, decodeWord_family8_of_encode (n := 0x7) rfl,
    decodeWord_family8_of_encode (n := 0xE) rfl⟩

/-! ### Sample words -/

/-- Settles O1: each word, decoded by evaluating the model. -/
theorem decodeSampleWords : Obligations.DecodeSampleWords := by
  unfold Obligations.DecodeSampleWords
  exact ⟨rfl, rfl, rfl, rfl, rfl, rfl, rfl, rfl, rfl, rfl, rfl, rfl⟩

end Sys2Proof.Machine
end

section
/-!
CYCLE from its fetch on (spec/40_cycle.md R100–R111): what it answers for each outcome of the fetch and the decode, how a
step comes to it, what a fault leaves alone, and what it returns.
-/

namespace Sys2Proof.Machine

/-! ### CYCLE, by the outcome of the fetch and the decode -/

/-- R101. -/
theorem cycle_of_fetch_eq_none {s : State} (rnd : Byte) (hh : s.halted = false) (hf : s.fetch = none) :
    cycle rnd s = .next ((s.beginCycle rnd).raiseFault .fetchRange s.PC 0) := by
  simp [cycle, hh, hf]

/-- R102. -/
theorem cycle_of_illegal {s : State} (rnd : Byte) {op : Word} (hh : s.halted = false) (hf : s.fetch = some op)
    (hd : decodeWord op = none) :
    cycle rnd s = .next ((s.beginCycle rnd).raiseFault .illegalInstruction op op) := by
  simp [cycle, hh, hf, hd]

/-- R103. -/
theorem cycle_of_fetchedInstr {s : State} (rnd : Byte) {i : Instr} (hh : s.halted = false)
    (hi : s.fetchedInstr = some i) : cycle rnd s = exec i (s.beginCycle rnd) := by
  obtain ⟨op, hf, hd⟩ := Option.bind_eq_some_iff.mp hi
  simp [cycle, hh, hf, hd]

theorem State.fetchedInstr_of_decodeWord {s : State} {i : Instr} (hp : s.PC.toNat ≤ 0x0FFE)
    (hd : decodeWord (wordOfBytes (s.readByte s.PC.toNat) (s.readByte (s.PC.toNat + 1))) = some i) :
    s.fetchedInstr = some i := by
  rw [State.fetchedInstr, State.fetch_of_le hp, Option.bind_some, hd]

/-- Settles O7: the fetch by the two sides of the boundary, and the fault entry when it gives nothing. -/
theorem fetchReadsWordOrFaults : Obligations.FetchReadsWordOrFaults := by
  unfold Obligations.FetchReadsWordOrFaults
  refine fun s rnd hh => ⟨fun hp => ?outside, fun hp => ?inside⟩
  case outside =>
    have hf : s.fetch = none := s.fetch_eq_none_iff.mpr hp
    exact ⟨hf, _, cycle_of_fetch_eq_none rnd hh hf, rfl, rfl, unchangedExcept_beginCycle_raiseFault _ _ _ _ _⟩
  case inside => exact ⟨_, State.fetch_of_le hp, wordOfBytes_toNat _ _⟩

theorem decodeWord_eq_none_of_no_row {op : Word} (h : ∀ r ∈ opcodeTable, op &&& r.mask ≠ r.pattern) :
    decodeWord op = none := by
  rw [← Option.not_isSome_iff_eq_none, decodeWord_isSome_iff, legalWord, List.any_eq_true]
  rintro ⟨r, hr, hop⟩
  exact h r hr (of_decide_eq_true hop)

/-- Settles O8: a word of no row does not decode (`decodeWord_isSome_iff`), and the decoder's fault is then all there is. -/
theorem illegalWordFaults : Obligations.IllegalWordFaults := by
  unfold Obligations.IllegalWordFaults
  exact fun s rnd op hh hf hno => ⟨_, cycle_of_illegal rnd hh hf (decodeWord_eq_none_of_no_row hno), rfl, rfl,
    unchangedExcept_beginCycle_raiseFault _ _ _ _ _⟩

/-! ### From a step to CYCLE -/

theorem decodeWord_of_decode {hi lo : Byte} {i : Instr} {rest : List Byte} (h : decode [hi, lo] = .ok (i, rest)) :
    decodeWord (wordOfBytes hi lo) = some i := by
  rw [decode] at h
  split at h <;> cases h
  assumption

theorem stateOf_transact_cycle (rnd : Byte) (s : State) : stateOf (transact (.cycle rnd) s) = cycle rnd s := by
  obtain ⟨t, ht⟩ := cycle_answers rnd s
  rw [transact, ht, stateOf]

theorem step_of_script_nil {s : State} (hh : s.halted = false) (hs : s.script = []) :
    step s = cycle (Config.freeRnd s.draws) { s with draws := s.draws + 1 } := by
  simp [step, nextTransaction, hs, freeCycle, hh]

theorem step_of_script_cycle {s : State} {rnd : Byte} {rest : List Transaction} (hs : s.script = .cycle rnd :: rest) :
    step s = cycle rnd { s with script := rest } := by
  rw [step_of_script hs, stateOf_transact_cycle]

/-- Settles O6: either way the step is a CYCLE, of a state with the same PC and bytes, which runs the fetched instruction. -/
theorem stepRunsDecodedInstruction : Obligations.StepRunsDecodedInstruction := by
  unfold Obligations.StepRunsDecodedInstruction
  intro s i hh hp _ hd
  have hi : s.fetchedInstr = some i := State.fetchedInstr_of_decodeWord hp (decodeWord_of_decode hd)
  refine ⟨fun hs => ?free, fun rnd rest hs => ?scripted⟩
  case free =>
    rw [step_of_script_nil hh hs]
    exact cycle_of_fetchedInstr (s := { s with draws := s.draws + 1 }) _ hh hi
  case scripted =>
    rw [step_of_script_cycle hs]
    exact cycle_of_fetchedInstr (s := { s with script := rest }) rnd hh hi

/-! ### The halted core -/

section
variable {s : State} (hh : s.halted = true)
include hh

theorem cycle_of_halted (rnd : Byte) : cycle rnd s = .next s := if_pos hh

theorem State.tick_of_halted : s.tick = s := if_pos hh

theorem State.setKeys_of_halted (k : Keys) : s.setKeys k = s := if_pos hh

theorem State.loadRefused_of_halted (image : List Byte) : s.loadRefused image = true := by
  simp [State.loadRefused, hh]

end

theorem State.load_of_loadRefused {s : State} {image : List Byte} (h : s.loadRefused image = true) :
    s.load image = s := if_pos h

theorem cycleStatus_of_halted {s : State} (hh : s.halted = true) (t : State) : cycleStatus s t = .halted := if_pos hh

/-- Settles O9: each operation tests `halted` first; the reads do not. -/
theorem haltedCoreStandsStill : Obligations.HaltedCoreStandsStill := by
  unfold Obligations.HaltedCoreStandsStill
  intro s rnd k image hh
  have hr : s.loadRefused image = true := State.loadRefused_of_halted hh image
  refine ⟨?cycle, ?tick, ?setKeys, ?load, rfl, rfl⟩
  case cycle => simp only [transact, cycle_of_halted hh, cycleStatus_of_halted hh]
  case tick => rw [transact, State.tick_of_halted hh]
  case setKeys => rw [transact, State.setKeys_of_halted hh]
  case load => rw [transact, State.load_of_loadRefused hr, if_pos hr]

/-! ### Faults are precise -/

/-- A running core is halted by a CYCLE only through the fault entry, which is then all the cycle has done (R106). -/
theorem cycle_raised_of_halted {s t : State} {rnd : Byte} (hh : s.halted = false) (h : cycle rnd s = .next t)
    (ht : t.halted = true) : ∃ cause info op, t = (s.beginCycle rnd).raiseFault cause info op := by
  obtain ⟨hs, -⟩ | ⟨-, -, hc⟩ | ⟨op, -, -, -, -, hc⟩ | ⟨op, i, -, -, -, -, hc⟩ := cycle_cases rnd s
  · rw [hh] at hs; cases hs
  · rw [hc] at h; cases h; exact ⟨_, _, _, rfl⟩
  · rw [hc] at h; cases h; exact ⟨_, _, _, rfl⟩
  · rw [hc] at h
    obtain ⟨-, hf⟩ | ⟨cause, info, -, rfl⟩ := exec_fault_cases h
    · have hn : t.halted = false := by rwa [State.halted, hf]
      rw [hn] at ht; cases ht
    · exact ⟨_, _, _, rfl⟩

/-- Settles O11: the fault entry writes the record alone, and the cycle's start the load gate. -/
theorem faultsArePrecise : Obligations.FaultsArePrecise := by
  unfold Obligations.FaultsArePrecise
  intro s t rnd hh h ht
  obtain ⟨cause, info, op, rfl⟩ := cycle_raised_of_halted hh h ht
  exact ⟨unchangedExcept_beginCycle_raiseFault _ _ _ _ _, rfl, rfl⟩

/-! ### What a CYCLE returns -/

theorem blockedBetween_iff (s t : State) :
    blockedBetween s t = true ↔ (∃ x, s.fetchedInstr = some (.ldVxKey x)) ∧ t.PC = s.PC := by
  unfold blockedBetween
  split
  next x hx => simp [hx]
  next hx => simpa using fun x h => absurd h (hx x)

theorem cycleStatus_eq_halted_iff (s t : State) : cycleStatus s t = .halted ↔ s.halted = true := by
  unfold cycleStatus
  split_ifs <;> simp_all

theorem cycleStatus_eq_fault_iff (s t : State) (c : FaultCause) :
    cycleStatus s t = .fault c ↔ s.halted = false ∧ t.halted = true ∧ t.fault.cause = c := by
  unfold cycleStatus
  split_ifs <;> simp_all

theorem cycleStatus_eq_blocked_iff (s t : State) :
    cycleStatus s t = .blocked ↔ s.halted = false ∧ t.halted = false ∧ blockedBetween s t = true := by
  unfold cycleStatus
  split_ifs <;> simp_all

theorem cycleStatus_cases (s t : State) : cycleStatus s t = .halted ∨ (∃ c, cycleStatus s t = .fault c) ∨
    cycleStatus s t = .blocked ∨ cycleStatus s t = .ok := by
  unfold cycleStatus
  split_ifs <;> simp

/-- FX0A raises no fault (R231): a running core that fetches it is running after the CYCLE. -/
theorem cycle_running_of_ldVxKey {s t : State} {rnd : Byte} {x : RegIndex} (hh : s.halted = false)
    (hx : s.fetchedInstr = some (.ldVxKey x)) (h : cycle rnd s = .next t) : t.halted = false := by
  rw [cycle_of_fetchedInstr rnd hh hx] at h
  have hf : t.fault = (s.beginCycle rnd).fault := exec_fault_of_executeFault_none h rfl
  rwa [State.halted, hf]

/-- Settles O14: `cycleStatus`, result by result; `blocked` says nothing of faults because FX0A raises none. -/
theorem cycleReturns : Obligations.CycleReturns := by
  unfold Obligations.CycleReturns
  intro s rnd
  obtain ⟨t, ht⟩ := cycle_answers rnd s
  refine ⟨t, cycleStatus s t, ht, by rw [transact, ht], cycleStatus_eq_halted_iff s t, cycleStatus_eq_fault_iff s t, ?_,
    cycleStatus_cases s t⟩
  rw [cycleStatus_eq_blocked_iff, blockedBetween_iff]
  constructor
  · rintro ⟨hh, -, hb⟩
    exact ⟨hh, hb⟩
  · rintro ⟨hh, ⟨x, hx⟩, hp⟩
    exact ⟨hh, cycle_running_of_ldVxKey hh hx ht, ⟨x, hx⟩, hp⟩

/-! ### The parked program -/

theorem encode_jp_eq_or (a : Addr) : encode (.jp a) = 0x1000#16 ||| a.setWidth 16 := by
  apply word_ext
  rw [encode, wordA_toNat, BitVec.toNat_or, BitVec.toNat_setWidth, Nat.mod_eq_of_lt (by omega)]
  exact Nat.two_pow_add_eq_or_of_lt (i := 12) a.isLt 1

theorem Parked.fetchedInstr {a : Addr} {s : State} (h : Parked a s) : s.fetchedInstr = some (.jp a) := by
  obtain ⟨ha, hpc, hw⟩ := h
  have hn : s.PC.toNat = a.toNat := by
    rw [hpc, BitVec.toNat_setWidth]
    omega
  refine State.fetchedInstr_of_decodeWord (by omega) ?_
  rw [hn, hw, ← encode_jp_eq_or, decodeWord_encode]

theorem Parked.of_unchangedExcept {ps : List Part} {a : Addr} {s t : State} (hs : Parked a s)
    (h : UnchangedExcept ps s t) (hp : .PC ∉ ps) (hm : .mem ∉ ps) : Parked a t := by
  obtain ⟨ha, hpc, hw⟩ := hs
  have hbyte : ∀ b, t.readByte b = s.readByte b := h .mem hm
  exact ⟨ha, Eq.trans (h .PC hp) hpc, by rw [hbyte, hbyte, hw]⟩

/-- R122: a jump to the instruction's own address changes nothing. -/
theorem exec_jp_self {nnn : Addr} {s : State} (h : s.PC = nnn.setWidth 16) : exec (.jp nnn) s = .next s := by
  rw [exec, execJp, zextAddr, ← h]

/-- Settles O53: the parked word is a jump to its own address, and a TICK touches neither PC nor memory. -/
theorem parkedProgramStays : Obligations.ParkedProgramStays := by
  unfold Obligations.ParkedProgramStays
  intro s a rnd hs hh
  have ⟨_, hpc, _⟩ := hs
  have hu := unchangedExcept_tick s
  refine ⟨?cycle, s.tick, rfl, hu, hs.of_unchangedExcept hu (by decide) (by decide), ?running⟩
  case cycle =>
    rw [cycle_of_fetchedInstr rnd hh hs.fetchedInstr]
    exact exec_jp_self (s := s.beginCycle rnd) hpc
  case running =>
    have hf : s.tick.fault = s.fault := hu .fault (by decide)
    rwa [State.halted, hf]

end Sys2Proof.Machine
end

section
/-!
The program counter (spec/40_cycle.md R105, R112) and the addresses on the stack (spec/41_control_flow.md R121, R123): the
PC after each instruction is the table's, and no address leaves its bound.
-/

namespace Sys2Proof.Machine

/-! ### The PC after each instruction -/

theorem eq_of_raise_or_next {c : Bool} {i : Instr} {cause : FaultCause} {info : Word} {s a t : State}
    (h : (if c then raise i cause info s else .next a) = .next t)
    (he : executeFault i s = if c then some (cause, info) else none) (hn : executeFault i s = none) : t = a := by
  obtain ⟨rfl, -⟩ | ⟨-, ht⟩ := raise_or_next_cases h
  · rw [he] at hn; cases hn
  · exact ht

theorem resultThenFlag_PC (x y : RegIndex) (res flg : Byte → Byte → Byte) (s : State) :
    (resultThenFlag x y res flg s).PC = s.PC := by
  obtain ⟨v, hv⟩ := resultThenFlag_frame x y res flg s
  rw [hv]

theorem flagThenResult_PC (x y : RegIndex) (flg res : Byte → Byte → Byte) (s : State) :
    (flagThenResult x y flg res s).PC = s.PC := by
  obtain ⟨v, hv⟩ := flagThenResult_frame x y flg res s
  rw [hv]

/-- R213: FX0A moves PC exactly when it is waiting and a key is newly pressed. -/
theorem exec_ldVxKey_PC {x : RegIndex} {s t : State} (h : exec (.ldVxKey x) s = .next t) :
    t.PC = pcAfter (.ldVxKey x) s := by
  simp only [exec, execLdVxKey] at h
  split at h
  next hw =>
    split at h <;> cases h
    next k hk =>
      obtain ⟨hnew, -⟩ := (firstNewPress_some_iff ..).mp hk
      exact (if_pos ⟨hw, k, hnew⟩).symm
    next hk =>
      have hnone := (firstNewPress_none_iff ..).mp hk
      exact (if_neg fun ⟨_, k, hnew⟩ => hnone k hnew).symm
  next hw =>
    cases h
    exact (if_neg fun hc => hw hc.1).symm

/-- R112: an instruction that raises no fault leaves the PC of the table. -/
theorem exec_PC_eq_pcAfter {i : Instr} {s t : State} (hn : executeFault i s = none) (h : exec i s = .next t) :
    t.PC = pcAfter i s := by
  cases i with
  | ret => obtain rfl := eq_of_raise_or_next h (executeFault_ret s) hn; rfl
  | call nnn => obtain rfl := eq_of_raise_or_next h (executeFault_call nnn s) hn; rfl
  | drw x y n => obtain rfl := eq_of_raise_or_next h (executeFault_drw x y n s) hn; rfl
  | ldBVx x => obtain rfl := eq_of_raise_or_next h (executeFault_ldBVx x s) hn; rfl
  | storeRegs x => obtain rfl := eq_of_raise_or_next h (executeFault_storeRegs x s) hn; rfl
  | loadRegs x => obtain rfl := eq_of_raise_or_next h (executeFault_loadRegs x s) hn; rfl
  | addReg x y => cases h; rw [State.advance_PC, resultThenFlag_PC, pcAfter]
  | subReg x y | subnReg x y | shrReg x y | shlReg x y =>
    cases h
    rw [State.advance_PC, flagThenResult_PC, pcAfter]
  | seByte x nn | sneByte x nn | seReg x y | sneReg x y =>
    cases h
    simp [pcAfter]
  | skp x | sknp x =>
    have hk : (s.getV x).toNat < 16 := by simpa [executeFault_skp, executeFault_sknp] using hn
    simp only [exec, execSkp, execSknp, keyIndex?_some hk] at h
    cases h
    simp [pcAfter, hk]
  | ldVxKey x => exact exec_ldVxKey_PC h
  | _ => cases h; rfl

/-- Settles O17: form by form; a form that may fault is taken past its check. -/
theorem pcAfterEachInstruction : Obligations.PcAfterEachInstruction := by
  unfold Obligations.PcAfterEachInstruction
  exact fun _ _ _ => exec_PC_eq_pcAfter

/-! ### The bounds of PC and of the stack entries -/

/-- Where an instruction can lead: on from PC by 0, 2 or 4, past a popped address, or to the target of a jump. -/
theorem pcAfter_cases (i : Instr) (s : State) :
    pcAfter i s = s.PC ∨ pcAfter i s = s.PC + 2 ∨ pcAfter i s = s.PC + 4 ∨ pcAfter i s = s.popValue + 2 ∨
    ∃ nnn : Addr, pcAfter i s = nnn.setWidth 16 ∨ pcAfter i s = nnn.setWidth 16 + (s.getV 0).setWidth 16 := by
  cases i with
  | jp nnn | call nnn => exact .inr (.inr (.inr (.inr ⟨nnn, .inl rfl⟩)))
  | jpV0 nnn => exact .inr (.inr (.inr (.inr ⟨nnn, .inr rfl⟩)))
  | ret => exact .inr (.inr (.inr (.inl rfl)))
  | seByte x nn | sneByte x nn | seReg x y | sneReg x y | skp x | sknp x | ldVxKey x =>
    simp only [pcAfter]
    split_ifs <;> simp
  | _ => exact .inr (.inl rfl)

theorem AddressesBounded.popValue_le {s : State} (hs : AddressesBounded s) : s.popValue.toNat ≤ 0x0FFE :=
  hs.2 (stackIndex s.spAfterPop.val)

theorem AddressesBounded.pcAfter_le {s : State} (hs : AddressesBounded s) (hp : s.PC.toNat ≤ 0x0FFE) (i : Instr) :
    (pcAfter i s).toNat ≤ 0x10FE := by
  have hpop := hs.popValue_le
  obtain h | h | h | h | ⟨nnn, h | h⟩ := pcAfter_cases i s <;> rw [h] <;> clear h
  · omega
  · bv_omega
  · bv_omega
  · bv_omega
  · bv_omega
  · have := (s.getV 0).isLt
    bv_omega

/-- R123: a stack entry is kept, or it is the executing instruction's own address. -/
theorem exec_stack_cases {i : Instr} {s t : State} (h : exec i s = .next t) (k : Fin 16) :
    t.stack[k.val] = s.stack[k.val] ∨ t.stack[k.val] = s.PC := by
  by_cases hi : .stack ∈ mayChange i
  · obtain ⟨nnn, rfl⟩ := stack_mem_mayChange hi
    obtain ⟨-, rfl⟩ | ⟨-, rfl⟩ := raise_or_next_cases h
    · exact .inl rfl
    · have hk := s.stack_push s.PC k
      split_ifs at hk
      · exact .inr hk
      · exact .inl hk
  · exact .inl (exec_unchangedExcept h .stack (by simpa using hi) k)

theorem exec_keeps_addressesBounded {i : Instr} {s t : State} (hs : AddressesBounded s) (hp : s.PC.toNat ≤ 0x0FFE)
    (h : exec i s = .next t) : AddressesBounded t := by
  have ⟨hpc, hstack⟩ := hs
  constructor
  · obtain ⟨hn, -⟩ | ⟨cause, info, -, rfl⟩ := exec_fault_cases h
    · rw [exec_PC_eq_pcAfter hn h]
      exact hs.pcAfter_le hp i
    · exact hpc
  · intro k
    obtain hk | hk := exec_stack_cases h k <;> rw [hk]
    · exact hstack k
    · exact hp

theorem AddressesBounded.of_unchangedExcept {ps : List Part} {s t : State} (hs : AddressesBounded s)
    (h : UnchangedExcept ps s t) (hp : .PC ∉ ps) (hk : .stack ∉ ps) : AddressesBounded t := by
  obtain ⟨hpc, hstack⟩ := hs
  have hsame : ∀ k : Fin 16, t.stack[k.val] = s.stack[k.val] := h .stack hk
  exact ⟨(h .PC hp).symm ▸ hpc, fun k => hsame k ▸ hstack k⟩

/-- Only an instruction that was fetched, at 0x0FFE or below, is executed (R101). -/
theorem cycle_keeps_addressesBounded {s t : State} {rnd : Byte} (hs : AddressesBounded s)
    (h : cycle rnd s = .next t) : AddressesBounded t := by
  obtain ⟨-, hc⟩ | ⟨-, -, hc⟩ | ⟨op, -, -, -, -, hc⟩ | ⟨op, i, -, hp, -, -, hc⟩ := cycle_cases rnd s <;> rw [hc] at h
  · cases h; exact hs
  · cases h; exact hs
  · cases h; exact hs
  · exact exec_keeps_addressesBounded (s := s.beginCycle rnd) hs hp h

/-- Settles O57: the PC of the table stays within its bound when PC was fetched from and every stack entry is in bounds, and a
pushed entry is such a PC. -/
theorem stepKeepsAddressesBounded : Obligations.StepKeepsAddressesBounded := by
  unfold Obligations.StepKeepsAddressesBounded
  intro s t hs h
  refine step_keeps (P := AddressesBounded) ?host ?reset ?load ?keys ?tick ?cycle hs h
  case host => exact fun s _ _ hs => hs
  case reset => exact fun s _ => State.resetWith_addressesBounded s.config
  case load => exact fun s image hs => hs.of_unchangedExcept (unchangedExcept_load image s) (by decide) (by decide)
  case keys => exact fun s k hs => hs.of_unchangedExcept (unchangedExcept_setKeys k s) (by decide) (by decide)
  case tick => exact fun s hs => hs.of_unchangedExcept (unchangedExcept_tick s) (by decide) (by decide)
  case cycle => exact fun s t rnd hs => cycle_keeps_addressesBounded hs

end Sys2Proof.Machine
end

section
/-!
Control flow (spec/41_control_flow.md R120–R128): jumps, call and return under both stack policies, and the register skips.
An instruction that raises no fault answers, with the PC of the table of R112 and the frame of its row.
-/

namespace Sys2Proof.Machine

/-! ### An instruction that raises no fault -/

theorem exec_unchangedExcept_mayChange {i : Instr} {s t : State} (h : exec i s = .next t)
    (hn : executeFault i s = none) : UnchangedExcept (mayChange i) s t := by
  intro p hp
  by_cases hf : p = .fault
  · subst hf
    exact exec_fault_of_executeFault_none h hn
  · exact exec_unchangedExcept h p (by simp [hf, hp])

/-- R109, R112: an instruction whose fault condition is not met answers, and completes by its row of both tables. -/
theorem exec_completes {i : Instr} {s : State} (hn : executeFault i s = none) :
    ∃ t, exec i s = .next t ∧ UnchangedExcept (mayChange i) s t ∧ t.PC = pcAfter i s := by
  obtain ⟨t, ht⟩ := exec_answers i s
  exact ⟨t, ht, exec_unchangedExcept_mayChange ht hn, exec_PC_eq_pcAfter hn ht⟩

/-! ### Jumps (R122, R128) -/

theorem addr_setWidth_toNat (nnn : Addr) : (nnn.setWidth 16).toNat = nnn.toNat :=
  BitVec.toNat_setWidth_of_le (by decide)

/-- R128: the sum is exact, at most 0x0FFF + 0xFF. -/
theorem addr_add_byte_toNat (nnn : Addr) (b : Byte) :
    (nnn.setWidth 16 + b.setWidth 16).toNat = nnn.toNat + b.toNat := by
  bv_omega

/-- Settles O20: a jump's PC is the table's. -/
theorem jumpsComplete : Obligations.JumpsComplete := by
  unfold Obligations.JumpsComplete
  intro s nnn
  constructor
  · obtain ⟨t, ht, hframe, hpc⟩ := exec_completes (i := .jp nnn) (s := s) rfl
    exact ⟨t, ht, hpc ▸ addr_setWidth_toNat nnn, hframe⟩
  · obtain ⟨t, ht, hframe, hpc⟩ := exec_completes (i := .jpV0 nnn) (s := s) rfl
    exact ⟨t, ht, hpc ▸ addr_add_byte_toNat nnn (s.getV 0), hframe⟩

/-! ### Register skips (R124–R127) -/

/-- Settles O24: each skip's PC is the table's, whose comparison of registers is one of numbers. -/
theorem registerSkipsComplete : Obligations.RegisterSkipsComplete := by
  unfold Obligations.RegisterSkipsComplete
  intro s x y nn
  simp only [BitVec.toNat_inj]
  refine ⟨exec_completes rfl, ?sneByte, exec_completes rfl, ?sneReg⟩
  case sneByte => simpa only [mayChange, pcAfter, ite_not] using exec_completes (i := .sneByte x nn) (s := s) rfl
  case sneReg => simpa only [mayChange, pcAfter, ite_not] using exec_completes (i := .sneReg x y) (s := s) rfl

/-! ### Call and return (R120, R121, R123) -/

section
variable {s : State}

theorem exec_call_of_not_full (nnn : Addr) (h : ¬ (s.config.stackPolicy = .fault ∧ s.SP.val = 16)) :
    exec (.call nnn) s = .next { s.push s.PC with PC := zextAddr nnn } :=
  if_neg (mt s.pushFaults_iff.mp h)

theorem executeFault_call_of_full (nnn : Addr) (hp : s.config.stackPolicy = .fault) (hs : s.SP.val = 16) :
    executeFault (.call nnn) s = some (.stackOverflow, 16) := by
  rw [executeFault_call, if_pos (s.pushFaults_iff.mpr ⟨hp, hs⟩), hs]
  rfl

theorem exec_ret_of_not_empty (h : ¬ (s.config.stackPolicy = .fault ∧ s.SP.val = 0)) :
    exec .ret s = .next { s.pop with PC := s.popValue }.advance :=
  if_neg (mt s.popFaults_iff.mp h)

theorem executeFault_ret_of_empty (hp : s.config.stackPolicy = .fault) (hs : s.SP.val = 0) :
    executeFault .ret s = some (.stackUnderflow, 0) := by
  rw [executeFault_ret, if_pos (s.popFaults_iff.mpr ⟨hp, hs⟩), hs]
  rfl

/-- Where a push does not fault, SP itself is the number of the entry it writes. -/
theorem StackPointerInRange.sp_lt (hr : StackPointerInRange s)
    (h : ¬ (s.config.stackPolicy = .fault ∧ s.SP.val = 16)) : s.SP.val < 16 := by
  have := s.SP.isLt
  cases hp : s.config.stackPolicy with
  | wrap => exact Nat.lt_succ_of_le (hr hp)
  | fault =>
    have : s.SP.val ≠ 16 := fun hs => h ⟨hp, hs⟩
    omega

/-- Both policies name the same entry for the pop: one below SP, modulo 16. -/
theorem stackIndex_spAfterPop (h : ¬ (s.config.stackPolicy = .fault ∧ s.SP.val = 0)) :
    (stackIndex s.spAfterPop.val).val = (s.SP.val + 15) % 16 := by
  rw [stackIndex_val]
  cases hp : s.config.stackPolicy with
  | wrap => rw [State.spAfterPop_wrap hp, Nat.mod_mod]
  | fault =>
    have : s.SP.val ≠ 0 := fun hs => h ⟨hp, hs⟩
    rw [State.spAfterPop_fault hp]
    omega

end

/-- Settles O21: the entry pushed to is the one SP names, SP being below 16 where the push does not fault. -/
theorem callPushesItsAddress : Obligations.CallPushesItsAddress := by
  unfold Obligations.CallPushesItsAddress
  intro s nnn hr
  constructor
  · intro hfull
    have hlt := hr.sp_lt hfull
    have ht := exec_call_of_not_full nnn hfull
    refine ⟨_, ht, addr_setWidth_toNat nnn, fun k => ?_, State.spAfterPush_wrap,
      fun hp => State.spAfterPush_fault hp hlt, exec_unchangedExcept_mayChange ht (if_neg hfull)⟩
    rw [← Nat.mod_eq_of_lt hlt]
    exact s.stack_push s.PC k
  · intro hp hs
    exact exec_of_executeFault (executeFault_call_of_full nnn hp hs)

/-- Settles O22: the entry popped is the one the moved SP names. -/
theorem returnPopsAddress : Obligations.ReturnPopsAddress := by
  unfold Obligations.ReturnPopsAddress
  intro s _
  constructor
  · intro hempty
    have hk := stackIndex_spAfterPop hempty
    have ht := exec_ret_of_not_empty hempty
    refine ⟨_, ht, ⟨stackIndex s.spAfterPop.val, hk, rfl, fun hp => ?wrap, fun hp => ?fault⟩,
      exec_unchangedExcept_mayChange ht (if_neg hempty)⟩
    case wrap => exact (State.spAfterPop_wrap hp).trans hk.symm
    case fault =>
      have hne : s.SP.val ≠ 0 := fun hs => hempty ⟨hp, hs⟩
      have hsp := State.spAfterPop_fault hp
      have hlt := s.SP.isLt
      exact ⟨by rw [hk]; exact hsp.trans (by omega), by rw [hk]; omega⟩
  · intro hp hs
    exact exec_of_executeFault (executeFault_ret_of_empty hp hs)

/-- Settles O23: the return pops the entry the call pushed, because the SP the call leaves is one above, modulo 16 under
`wrap`. -/
theorem callThenReturn : Obligations.CallThenReturn := by
  unfold Obligations.CallThenReturn
  intro s nnn hr hfull
  have hlt := hr.sp_lt hfull
  obtain ⟨t, ht, -, hstack, hwrap, hfault, htframe⟩ := (callPushesItsAddress s nnn hr).1 hfull
  have htr := exec_keeps_stackPointerInRange hr ht
  have hc : t.config = s.config := exec_config ht
  have hempty : ¬ (t.config.stackPolicy = .fault ∧ t.SP.val = 0) := by
    rintro ⟨hp, hs⟩
    have := hfault (hc ▸ hp)
    omega
  obtain ⟨u, hu, ⟨k, hk, hpc, huwrap, hufault⟩, huframe⟩ := (returnPopsAddress t htr).1 hempty
  rw [hc] at huwrap hufault
  obtain ⟨hks, husp⟩ : k.val = s.SP.val ∧ u.SP.val = k.val := by
    cases hp : s.config.stackPolicy with
    | wrap =>
      have := hwrap hp
      exact ⟨by omega, huwrap hp⟩
    | fault =>
      have := hfault hp
      exact ⟨by omega, (hufault hp).1⟩
  have husp : u.SP = s.SP := Fin.ext (husp.trans hks)
  refine ⟨t, u, ht, hu, ?_, husp, fun j hj => ?_, fun p hp => ?_⟩
  · rw [hpc, hstack, if_pos hks]
  · exact (huframe .stack (by decide) j).trans ((hstack j).trans (if_neg hj))
  · by_cases hsp : p = .SP
    · subst hsp
      exact husp
    · obtain ⟨hpc', hstack'⟩ : p ≠ .PC ∧ p ≠ .stack := by simpa using hp
      exact (htframe p (by simp [hpc', hstack', hsp])).trans (huframe p (by simp [hpc', hsp]))

end Sys2Proof.Machine
end

section
/-!
The ALU family (spec/42_alu.md R140–R153): the frame its instructions share, the flag values as numbers, and what the two
writes of 8XY4–8XYE leave in `V[X]` and `VF` for each aliasing of X, Y and F.
-/

namespace Sys2Proof.Machine

/-! ### The frame of an ALU instruction -/

/-- R112, R140: an instruction that may change registers and PC alone raises no fault and goes on to the next word. -/
theorem exec_frame_of_mayChange_PC_V {i : Instr} {P : RegIndex → Prop} {s t : State} (hi : mayChange i = [.PC, .V])
    (hP : ∀ r, mayWrite i r = true → P r) (h : exec i s = .next t) :
    RegsKeptExcept P s t ∧ t.PC = s.PC + 2 ∧ UnchangedExcept [.V, .PC] s t := by
  obtain ⟨hn, hpc⟩ : executeFault i s = none ∧ pcAfter i s = s.PC + 2 := by
    cases i <;> simp [mayChange] at hi <;> exact ⟨rfl, rfl⟩
  refine ⟨fun r hr => ?_, (exec_PC_eq_pcAfter hn h).trans hpc, fun p hp => ?_⟩
  · exact exec_getV_of_not_mayWrite h (Bool.not_eq_true _ ▸ mt (hP r) hr)
  · exact exec_unchangedExcept_mayChange h hn p (by simpa [hi, and_comm] using hp)

/-- One destination: the loads, the logic and the random byte. -/
theorem exec_frame_of_one_register (i : Instr) {x : RegIndex} {s t : State} (hi : mayChange i = [.PC, .V])
    (hw : ∀ r, mayWrite i r = decide (r = x)) (h : exec i s = .next t) :
    RegsKeptExcept (· = x) s t ∧ t.PC = s.PC + 2 ∧ UnchangedExcept [.V, .PC] s t :=
  exec_frame_of_mayChange_PC_V hi (fun r hr => of_decide_eq_true (hw r ▸ hr)) h

/-- A destination and VF: 8XY4 to 8XYE. -/
theorem exec_frame_of_flag_writer (i : Instr) {x : RegIndex} {s t : State} (hi : mayChange i = [.PC, .V])
    (hw : ∀ r, mayWrite i r = (decide (r = x) || decide (r = VF))) (h : exec i s = .next t) :
    RegsKeptExcept (fun r => r = x ∨ r = VF) s t ∧ t.PC = s.PC + 2 ∧ UnchangedExcept [.V, .PC] s t :=
  exec_frame_of_mayChange_PC_V hi (fun r hr => by simpa [hw r] using hr) h

/-! ### One write: loads, logic and the random byte (R142–R147, R153) -/

theorem State.getV_setV_advance (x : RegIndex) (b : Byte) (s : State) : (s.setV x b).advance.getV x = b := by simp

/-- Settles O25: the one write, and the sum of bytes as a number. -/
theorem immediateLoadAndAdd : Obligations.ImmediateLoadAndAdd := by
  unfold Obligations.ImmediateLoadAndAdd
  intro s x nn
  refine ⟨⟨_, rfl, s.getV_setV_advance x nn, exec_frame_of_one_register (.ldByte x nn) rfl (fun _ => rfl) rfl⟩,
    ⟨_, rfl, ?_, exec_frame_of_one_register (.addByte x nn) rfl (fun _ => rfl) rfl⟩⟩
  rw [State.getV_setV_advance, BitVec.toNat_add]

/-- Settles O26: the one write, and each operation bit by bit. -/
theorem registerCopyAndLogic : Obligations.RegisterCopyAndLogic := by
  unfold Obligations.RegisterCopyAndLogic
  intro s x y
  refine ⟨⟨_, rfl, s.getV_setV_advance x _, exec_frame_of_one_register (.ldReg x y) rfl (fun _ => rfl) rfl⟩,
    ⟨_, rfl, fun k _ => ?or, exec_frame_of_one_register (.orReg x y) rfl (fun _ => rfl) rfl⟩,
    ⟨_, rfl, fun k _ => ?and, exec_frame_of_one_register (.andReg x y) rfl (fun _ => rfl) rfl⟩,
    ⟨_, rfl, fun k _ => ?xor, exec_frame_of_one_register (.xorReg x y) rfl (fun _ => rfl) rfl⟩⟩
  case or => rw [State.getV_setV_advance, BitVec.getLsbD_or]
  case and => rw [State.getV_setV_advance, BitVec.getLsbD_and]
  case xor => rw [State.getV_setV_advance, BitVec.getLsbD_xor]

/-- Settles O32: the write of the byte the execute step reads, which is the CYCLE's own argument. -/
theorem randomByteMasked : Obligations.RandomByteMasked := by
  unfold Obligations.RandomByteMasked
  refine ⟨fun s x nn => ⟨_, rfl, fun k _ => ?_, exec_frame_of_one_register (.rndByte x nn) rfl (fun _ => rfl) rfl⟩,
    fun s x nn rnd hh hi => ⟨_, cycle_of_fetchedInstr rnd hh hi, (s.beginCycle rnd).getV_setV_advance x _⟩⟩
  rw [State.getV_setV_advance, BitVec.getLsbD_and]

/-! ### The flag values as numbers (R148–R152) -/

/-- R148: the wrapped sum is less than an operand exactly when the sum left the byte. -/
theorem carryFlag_add (a b : Byte) : carryFlag (a + b) b = if 256 ≤ a.toNat + b.toNat then 1 else 0 := by
  have hiff : a + b < b ↔ 256 ≤ a.toNat + b.toNat := by bv_omega
  simp [carryFlag, flag, hiff]

theorem carryFlag_self (a : Byte) : carryFlag a a = 0 := by simp [carryFlag, flag]

theorem notBorrowFlag_eq (a b : Byte) : notBorrowFlag a b = if a.toNat < b.toNat then 0 else 1 := by
  simp only [notBorrowFlag, flag, Bool.not_eq_true', decide_eq_false_iff_not, gt_iff_lt, BitVec.lt_def, ite_not]

theorem notBorrowFlag_self (a : Byte) : notBorrowFlag a a = 1 := by simp [notBorrowFlag, flag]

theorem lowBit_toNat (a : Byte) : (lowBit a).toNat = a.toNat % 2 := by
  simp [lowBit, Nat.and_one_is_mod]

theorem topBit_toNat (a : Byte) : (topBit a).toNat = a.toNat / 128 := by
  have := a.isLt
  simp [topBit, Nat.and_one_is_mod, Nat.shiftRight_eq_div_pow]
  omega

/-! ### Result, then flag: 8XY4 (R148) -/

theorem resultThenFlag_getV_dest {x : RegIndex} (hx : x ≠ VF) (y : RegIndex) (res flg : Byte → Byte → Byte)
    (s : State) :
    (resultThenFlag x y res flg s).getV x = res (s.getV x) (s.getV y) := by
  cases hc : s.config.vfAlias
  · rw [resultThenFlag_getV_sequential hc, if_neg hx, if_pos rfl]
  · rw [resultThenFlag_getV_latched hc, if_neg hx, if_pos rfl]

/-- Settles O27: VF is computed from the sum and the second operand, and only for X = Y does `sequential` read the sum in
the second operand's place. -/
theorem addWithCarry : Obligations.AddWithCarry := by
  unfold Obligations.AddWithCarry
  intro s x y
  refine ⟨_, rfl, fun hx => ?sum, fun hxy => ?carry, fun hxy hc => ?selfSequential, fun hxy hc => ?selfLatched,
    exec_frame_of_flag_writer (.addReg x y) rfl (fun _ => rfl) rfl⟩ <;> rw [State.getV_advance]
  case sum => rw [resultThenFlag_getV_dest hx, BitVec.toNat_add]
  case carry => rw [resultThenFlag_getV_of_ne hxy, if_pos rfl, carryFlag_add]
  case selfSequential => rw [resultThenFlag_getV_sequential hc, if_pos rfl, if_pos hxy.symm, carryFlag_self]
  case selfLatched => rw [resultThenFlag_getV_latched hc, if_pos rfl, carryFlag_add, ← hxy, two_mul]

/-! ### Flag, then result: 8XY5, 8XY6, 8XY7 and 8XYE (R149–R152) -/

section
variable {x y : RegIndex} {flg res : Byte → Byte → Byte} {s : State}

theorem flagThenResult_getV_VF (hx : x ≠ VF) :
    (flagThenResult x y flg res s).getV VF = flg (s.getV x) (s.getV y) := by
  cases hc : s.config.vfAlias
  · rw [flagThenResult_getV_sequential hc, if_neg hx.symm, if_pos rfl]
  · rw [flagThenResult_getV_latched hc, if_pos rfl]

theorem flagThenResult_getV_VF_latched (hc : s.config.vfAlias = .latched) :
    (flagThenResult x y flg res s).getV VF = flg (s.getV x) (s.getV y) :=
  (flagThenResult_getV_latched hc VF).trans (if_pos rfl)

theorem flagThenResult_getV_dest_latched (hx : x ≠ VF) (hc : s.config.vfAlias = .latched) :
    (flagThenResult x y flg res s).getV x = res (s.getV x) (s.getV y) := by
  rw [flagThenResult_getV_latched hc, if_neg hx, if_pos rfl]

theorem flagThenResult_getV_dest_sequential (hc : s.config.vfAlias = .sequential) :
    (flagThenResult x y flg res s).getV x =
      res (if x = VF then flg (s.getV x) (s.getV y) else s.getV x) (if y = VF then flg (s.getV x) (s.getV y) else s.getV y) :=
  (flagThenResult_getV_sequential hc x).trans (if_pos rfl)

theorem flagThenResult_getV_dest (hx : x ≠ VF) (hy : y ≠ VF) :
    (flagThenResult x y flg res s).getV x = res (s.getV x) (s.getV y) := by
  rw [flagThenResult_getV_of_ne hx hy, if_neg hx, if_pos rfl]

/-- R149 and R151 alike, where equal operands give the difference 0 and no borrow: the destination and VF for every
aliasing of X, Y and F. -/
theorem flagThenResult_subtraction {a b f : Byte} (hres : ∀ c, res c c = 0) (hflg : ∀ c, flg c c = 1)
    (ha : a = s.getV x) (hb : b = s.getV y) (hf : f = flg a b) {t : State} (ht : t = flagThenResult x y flg res s) :
    (x ≠ VF → y ≠ VF → t.getV x = res a b ∧ t.getV VF = f) ∧
    (x = VF → y ≠ VF → s.config.vfAlias = .sequential → t.getV VF = res f b) ∧
    (x = VF → y ≠ VF → s.config.vfAlias = .latched → t.getV VF = f) ∧
    (x ≠ VF → y = VF → s.config.vfAlias = .sequential → t.getV x = res a f ∧ t.getV VF = f) ∧
    (x ≠ VF → y = VF → s.config.vfAlias = .latched → t.getV x = res a b ∧ t.getV VF = f) ∧
    (x = VF → y = VF → s.config.vfAlias = .sequential → t.getV VF = 0) ∧
    (x = VF → y = VF → s.config.vfAlias = .latched → t.getV VF = 1) := by
  subst ha hb hf ht
  refine ⟨fun hx hy => ⟨flagThenResult_getV_dest hx hy, flagThenResult_getV_VF hx⟩, ?_,
    fun _ _ => flagThenResult_getV_VF_latched, fun hx hy hc => ⟨?_, flagThenResult_getV_VF hx⟩,
    fun hx _ hc => ⟨flagThenResult_getV_dest_latched hx hc, flagThenResult_getV_VF hx⟩, ?_, ?_⟩
  · rintro rfl hy hc
    rw [flagThenResult_getV_dest_sequential hc, if_pos rfl, if_neg hy]
  · rw [flagThenResult_getV_dest_sequential hc, if_neg hx, if_pos hy]
  · rintro rfl rfl hc
    rw [flagThenResult_getV_dest_sequential hc, hres]
  · rintro rfl rfl hc
    rw [flagThenResult_getV_VF_latched hc, hflg]

end

/-- Settles O28: the subtraction's cases with `V[X]` as minuend. -/
theorem subtractWithBorrow : Obligations.SubtractWithBorrow := by
  unfold Obligations.SubtractWithBorrow
  intro s x y a b f ha hb hf
  obtain ⟨hne, hxs, hxl, hys, hyl, hxys, hxyl⟩ := flagThenResult_subtraction (flg := fun a b => notBorrowFlag a b)
    (res := fun a b => a - b) (@BitVec.sub_self 8) notBorrowFlag_self ha hb (hf.trans (notBorrowFlag_eq a b).symm) rfl
  exact ⟨_, rfl, hne, hxs, hxl, hys, hyl, hxys, hxyl, exec_frame_of_flag_writer (.subReg x y) rfl (fun _ => rfl) rfl⟩

/-- Settles O29: the subtraction's cases with `V[Y]` as minuend. -/
theorem reverseSubtractWithBorrow : Obligations.ReverseSubtractWithBorrow := by
  unfold Obligations.ReverseSubtractWithBorrow
  intro s x y a b f ha hb hf
  obtain ⟨hne, hxs, hxl, hys, hyl, hxys, hxyl⟩ := flagThenResult_subtraction (flg := fun a b => notBorrowFlag b a)
    (res := fun a b => b - a) (@BitVec.sub_self 8) notBorrowFlag_self ha hb (hf.trans (notBorrowFlag_eq b a).symm) rfl
  exact ⟨_, rfl, hne, hxs, hxl, hys, hyl, hxys, hxyl, exec_frame_of_flag_writer (.subnReg x y) rfl (fun _ => rfl) rfl⟩

/-- R150 and R152 alike: a shift is the two writes with X in Y's place; with X = F, `sequential` shifts the flag. -/
theorem flagThenResult_shift {x : RegIndex} {bit shift : Byte → Byte} {s t : State}
    (ht : t = flagThenResult x x (fun a _ => bit a) (fun a _ => shift a) s) :
    (x ≠ VF → t.getV x = shift (s.getV x) ∧ t.getV VF = bit (s.getV x)) ∧
    (x = VF → s.config.vfAlias = .sequential → t.getV VF = shift (bit (s.getV x))) ∧
    (x = VF → s.config.vfAlias = .latched → t.getV VF = bit (s.getV x)) := by
  subst ht
  refine ⟨fun hx => ⟨flagThenResult_getV_dest hx hx, flagThenResult_getV_VF hx⟩, ?_,
    fun _ => flagThenResult_getV_VF_latched⟩
  rintro rfl hc
  rw [flagThenResult_getV_dest_sequential hc, if_pos rfl]

theorem lowBit_ushiftRight_one (a : Byte) : lowBit a >>> 1 = 0 := by
  apply BitVec.eq_of_toNat_eq
  rw [BitVec.toNat_ushiftRight, Nat.shiftRight_eq_div_pow, lowBit_toNat]
  exact Nat.div_eq_of_lt (Nat.mod_lt _ two_pos)

theorem byte_shiftLeft_one_toNat (a : Byte) : (a <<< 1).toNat = 2 * a.toNat % 256 := by
  rw [BitVec.toNat_shiftLeft, Nat.shiftLeft_eq, mul_comm]

theorem topBit_shiftLeft_one_toNat (a : Byte) : (topBit a <<< 1).toNat = 2 * (a.toNat / 128) := by
  rw [byte_shiftLeft_one_toNat, topBit_toNat]
  omega

/-- Settles O30: the cases of a shift, and the shifted byte and the bit shifted out as numbers. -/
theorem shiftsByOne : Obligations.ShiftsByOne := by
  unfold Obligations.ShiftsByOne
  rintro s x y a rfl
  constructor
  · obtain ⟨hne, hseq, hlat⟩ := flagThenResult_shift (x := x) (bit := lowBit) (shift := (· >>> 1)) (s := s) rfl
    refine ⟨_, rfl, fun hx => ⟨?_, ?_⟩, fun hx hc => ?_, fun hx hc => ?_,
      exec_frame_of_flag_writer (.shrReg x y) rfl (fun _ => rfl) rfl⟩ <;> rw [State.getV_advance]
    · rw [(hne hx).1, BitVec.toNat_ushiftRight, Nat.shiftRight_one]
    · rw [(hne hx).2, lowBit_toNat]
    · rw [hseq hx hc, lowBit_ushiftRight_one]
    · rw [hlat hx hc, lowBit_toNat]
  · obtain ⟨hne, hseq, hlat⟩ := flagThenResult_shift (x := x) (bit := topBit) (shift := (· <<< 1)) (s := s) rfl
    refine ⟨_, rfl, fun hx => ⟨?_, ?_⟩, fun hx hc => ?_, fun hx hc => ?_,
      exec_frame_of_flag_writer (.shlReg x y) rfl (fun _ => rfl) rfl⟩ <;> rw [State.getV_advance]
    · rw [(hne hx).1, byte_shiftLeft_one_toNat]
    · rw [(hne hx).2, topBit_toNat]
    · rw [hseq hx hc, topBit_shiftLeft_one_toNat]
    · rw [hlat hx hc, topBit_toNat]

/-! ### The two settings of P_VF_ALIAS (R141) -/

/-- The state under a setting of P_VF_ALIAS. -/
def State.withVfAlias (v : VfAlias) (s : State) : State := { s with config := { s.config with vfAlias := v } }

theorem resultThenFlag_settings_agree {x y : RegIndex} (hxy : x ≠ y) (res flg : Byte → Byte → Byte) (s : State)
    (v w : VfAlias) (r : RegIndex) :
    (resultThenFlag x y res flg (s.withVfAlias v)).getV r = (resultThenFlag x y res flg (s.withVfAlias w)).getV r :=
  (resultThenFlag_getV_of_ne hxy res flg _ r).trans (resultThenFlag_getV_of_ne hxy res flg (s.withVfAlias w) r).symm

theorem flagThenResult_settings_agree {x y : RegIndex} (hx : x ≠ VF) (hy : y ≠ VF) (flg res : Byte → Byte → Byte) (s : State)
    (v w : VfAlias) (r : RegIndex) :
    (flagThenResult x y flg res (s.withVfAlias v)).getV r = (flagThenResult x y flg res (s.withVfAlias w)).getV r :=
  (flagThenResult_getV_of_ne hx hy flg res _ r).trans (flagThenResult_getV_of_ne hx hy flg res (s.withVfAlias w) r).symm

theorem unchangedExcept_withVfAlias (s : State) (v w : VfAlias) :
    UnchangedExcept [.config] (s.withVfAlias v) (s.withVfAlias w) := by
  simp [unchangedExcept_iff, State.withVfAlias, State.readByte, State.getV]

theorem Unchanged.symm {p : Part} {s t : State} (h : Unchanged p s t) : Unchanged p t s := by
  cases p
  case mem | V | stack => exact fun a => (h a).symm
  case fb => exact fun x y => (h x y).symm
  all_goals exact Eq.symm h

/-- Registers apart, an ALU instruction has the same effect under both settings. -/
theorem exec_settings_unchangedExcept_V {i : Instr} {s t u : State} {v w : VfAlias} (hi : mayChange i = [.PC, .V])
    (ht : exec i (s.withVfAlias v) = .next t) (hu : exec i (s.withVfAlias w) = .next u) :
    UnchangedExcept [.V, .config] t u := by
  obtain ⟨-, htpc, htframe⟩ := exec_frame_of_mayChange_PC_V hi (fun _ => id) ht
  obtain ⟨-, hupc, huframe⟩ := exec_frame_of_mayChange_PC_V hi (fun _ => id) hu
  intro p hp
  obtain ⟨hV, hc⟩ : p ≠ .V ∧ p ≠ .config := by simpa using hp
  by_cases hpc : p = .PC
  · subst hpc
    exact hupc.trans htpc.symm
  · have hkept : p ∉ [Part.V, .PC] := by simp [hV, hpc]
    exact ((htframe p hkept).symm.trans (unchangedExcept_withVfAlias s v w p (by simp [hc]))).trans (huframe p hkept)

/-- Settles O31: away from the aliased registers each of the two writes reads the same operands in either order. -/
theorem aliasSettingsAgree : Obligations.AliasSettingsAgree := by
  unfold Obligations.AliasSettingsAgree
  intro s x y i hx hy hxy hi
  obtain ⟨hparts, hV⟩ : mayChange i = [.PC, .V] ∧ ∀ t u, exec i (s.withVfAlias .sequential) = .next t →
      exec i (s.withVfAlias .latched) = .next u → ∀ r, t.getV r = u.getV r := by
    simp only [List.mem_cons, List.not_mem_nil, or_false] at hi
    obtain rfl | rfl | rfl | rfl | rfl := hi <;> refine ⟨rfl, ?_⟩ <;> rintro _ _ ⟨⟩ ⟨⟩
    · exact resultThenFlag_settings_agree hxy _ _ s _ _
    · exact flagThenResult_settings_agree hx hy _ _ s _ _
    · exact flagThenResult_settings_agree hx hx _ _ s _ _
    · exact flagThenResult_settings_agree hx hy _ _ s _ _
    · exact flagThenResult_settings_agree hx hx _ _ s _ _
  obtain ⟨t, ht⟩ := exec_answers i (s.withVfAlias .sequential)
  obtain ⟨u, hu⟩ := exec_answers i (s.withVfAlias .latched)
  exact ⟨t, u, ht, hu, hV t u ht hu, exec_settings_unchangedExcept_V hparts ht hu⟩

end Sys2Proof.Machine
end

section
/-!
The index register and memory transfer (spec/43_index_memory.md R170–R176): a data access completes when its last address
lies in memory and else raises MEM_RANGE alone; what FX33 and FX55 store, what FX65 loads, and where I goes.
-/

namespace Sys2Proof.Machine

/-! ### Data accesses in range and out of range (R63, R176) -/

theorem UnchangedExcept.mono {ps qs : List Part} {s t : State} (h : UnchangedExcept ps s t) (hsub : ps ⊆ qs) :
    UnchangedExcept qs s t := fun p hp => h p (mt (@hsub p) hp)

/-- An access whose last address lies in memory raises no fault. -/
theorem executeFault_of_inRange {i : Instr} {s : State} {k : Nat} (hk : dataBytes i = k + 1)
    (h : s.dataAddr k ≤ 0xFFF) : executeFault i s = none := by
  have hr : s.outOfRange (dataBytes i) = false := by
    rw [State.dataAddr] at h
    rw [State.outOfRange_eq_false_iff, hk]
    omega
  cases i with
  | drw x y n | ldBVx x | storeRegs x | loadRegs x =>
    exact (memRangeRow_eq _ s).trans (if_neg (Bool.eq_false_iff.mp hr))
  | _ => cases hk

/-- An access whose last address lies outside memory writes the record of R230 and nothing else. -/
theorem exec_of_outOfRange {i : Instr} {s : State} {k : Nat} (hk : dataBytes i = k + 1) (h : 0xFFF < s.dataAddr k) :
    exec i s = .next { s with fault := ⟨.memRange, s.PC, encode i, BitVec.ofNat 16 (max s.I.toNat 0x1000)⟩ } :=
  exec_of_executeFault (executeFault_of_outOfRange (hk ▸ Nat.lt_succ_self k) h)

/-! ### I without memory (R170–R172) -/

/-- R112: an instruction that may change I and PC alone goes on to the next word. -/
theorem exec_frame_of_mayChange_PC_I {i : Instr} {s t : State} (hi : mayChange i = [.PC, .I])
    (h : exec i s = .next t) : t.PC = s.PC + 2 ∧ UnchangedExcept [.I, .PC] s t := by
  obtain ⟨hn, hpc⟩ : executeFault i s = none ∧ pcAfter i s = s.PC + 2 := by
    cases i <;> simp [mayChange] at hi <;> exact ⟨rfl, rfl⟩
  exact ⟨(exec_PC_eq_pcAfter hn h).trans hpc, (hi ▸ exec_unchangedExcept_mayChange h hn).mono (by decide)⟩

/-- R172: the product is exact, at most 0xFF × 5. -/
theorem zextByte_mul_five_toNat (b : Byte) : (zextByte b * 5).toNat = b.toNat * 5 := by
  rw [BitVec.toNat_mul, zextByte_toNat]
  exact Nat.mod_eq_of_lt (by simp; omega)

/-- Settles O33: each instruction writes I and PC alone, and its value of I is the rule's as a number. -/
theorem indexRegisterLoads : Obligations.IndexRegisterLoads := by
  unfold Obligations.IndexRegisterLoads
  intro s x nnn
  refine ⟨⟨_, rfl, addr_setWidth_toNat nnn, exec_frame_of_mayChange_PC_I (i := .ldI nnn) rfl rfl⟩,
    ⟨_, rfl, ?addIVx, exec_frame_of_mayChange_PC_I (i := .addIVx x) rfl rfl⟩,
    ⟨_, rfl, zextByte_mul_five_toNat (s.getV x), exec_frame_of_mayChange_PC_I (i := .ldFVx x) rfl rfl⟩⟩
  case addIVx => rw [State.advance_I, BitVec.toNat_add, zextByte_toNat]

/-! ### FX33 (R173) -/

/-- Bytes stored at I are read back at their data addresses (R62, R69). -/
theorem State.readByte_writeBytes_dataAddr {s : State} (hm : MemoryCanonical s) {bs : List Byte} {k : Nat}
    (hk : k < bs.length) : (s.writeBytes (s.dataAddr 0) bs).readByte (s.dataAddr k) = bs[k] := by
  simp [State.readByte_writeBytes hm, State.dataAddr, List.getElem?_eq_getElem hk]

/-- R173: the k-th digit is at I + k after FX33. -/
theorem readByte_exec_ldBVx {s t : State} {x : RegIndex} (hm : MemoryCanonical s) (hn : executeFault (.ldBVx x) s = none)
    (ht : exec (.ldBVx x) s = .next t) {k : Nat} (hk : k < 3) :
    t.readByte (s.dataAddr k) = (bcdDigits (s.getV x))[k] := by
  obtain rfl := eq_of_raise_or_next ht (executeFault_ldBVx x s) hn
  rw [State.readByte_advance]
  exact State.readByte_writeBytes_dataAddr hm hk

/-- Settles O34: the three digits are the bytes stored, and each fits a byte. -/
theorem decimalDigitsStored : Obligations.DecimalDigitsStored := by
  unfold Obligations.DecimalDigitsStored
  intro s x hm
  refine ⟨fun h => ?_, exec_of_outOfRange rfl⟩
  have hn := executeFault_of_inRange (i := .ldBVx x) rfl h
  obtain ⟨t, ht, hframe, hpc⟩ := exec_completes hn
  have hdigit {k : Nat} (hk : k < 3) := congrArg BitVec.toNat (readByte_exec_ldBVx hm hn ht hk)
  refine ⟨t, ht, (hdigit (by decide)).trans ?hundreds, (hdigit (by decide)).trans ?tens, (hdigit (by decide)).trans ?ones,
    exec_bytesKeptOutside hm ht, hpc, hframe.mono (by simp [mayChange])⟩
  all_goals exact Nat.mod_eq_of_lt (by omega)

/-! ### FX55 and FX65 (R174, R175) -/

section
variable {s t : State} {x : RegIndex}

/-- R175: the registers after FX65. -/
theorem getV_exec_loadRegs (hn : executeFault (.loadRegs x) s = none) (ht : exec (.loadRegs x) s = .next t)
    (r : RegIndex) : t.getV r = if r ≤ x then s.readByte (s.dataAddr r.val) else s.getV r := by
  obtain rfl := eq_of_raise_or_next ht (executeFault_loadRegs x s) hn
  exact s.loadedRegs_get x r

theorem exec_storeRegs_I_toNat (hn : executeFault (.storeRegs x) s = none) (ht : exec (.storeRegs x) s = .next t) :
    t.I.toNat = (s.I.toNat + x.val + 1) % 0x10000 := by
  obtain rfl := eq_of_raise_or_next ht (executeFault_storeRegs x s) hn
  exact s.indexPast_toNat x

theorem exec_loadRegs_I_toNat (hn : executeFault (.loadRegs x) s = none) (ht : exec (.loadRegs x) s = .next t) :
    t.I.toNat = (s.I.toNat + x.val + 1) % 0x10000 := by
  obtain rfl := eq_of_raise_or_next ht (executeFault_loadRegs x s) hn
  exact s.indexPast_toNat x

end

/-- Settles O35: each register is read back where it was stored, and the store reaches no other byte. -/
theorem registersStored : Obligations.RegistersStored := by
  unfold Obligations.RegistersStored
  intro s x hm
  refine ⟨fun h => ?_, exec_of_outOfRange rfl⟩
  have hn := executeFault_of_inRange (i := .storeRegs x) rfl h
  obtain ⟨t, ht, hframe, hpc⟩ := exec_completes hn
  exact ⟨t, ht, fun _ => readByte_exec_storeRegs hm h ht, exec_bytesKeptOutside hm ht, exec_storeRegs_I_toNat hn ht, hpc,
    hframe.mono (by simp [mayChange])⟩

/-- Settles O36: register by register, loaded up to X and kept above. -/
theorem registersLoaded : Obligations.RegistersLoaded := by
  unfold Obligations.RegistersLoaded
  intro s x
  refine ⟨fun h => ?_, exec_of_outOfRange rfl⟩
  have hn := executeFault_of_inRange (i := .loadRegs x) rfl h
  obtain ⟨t, ht, hframe, hpc⟩ := exec_completes hn
  have hV := getV_exec_loadRegs hn ht
  exact ⟨t, ht, fun k hk => (hV k).trans (if_pos hk), fun r hr => (hV r).trans (if_neg hr), exec_loadRegs_I_toNat hn ht, hpc,
    hframe.mono (by simp [mayChange])⟩

/-- Settles O37: FX65 reads `V[0..X]` where FX55 stored them, and the registers above X were never replaced. -/
theorem storeThenLoadRoundTrips : Obligations.StoreThenLoadRoundTrips := by
  unfold Obligations.StoreThenLoadRoundTrips
  intro s x v hm h hv
  obtain ⟨t, ht, hstored, -, htI, -, htframe⟩ := (registersStored s x hm).1 h
  obtain ⟨u, hu, hloaded, hkept, huI, -, huframe⟩ := (registersLoaded { t with I := s.I, V := v } x).1 h
  have hV : ∀ r, u.getV r = s.getV r := by
    intro r
    obtain hr | hr := le_or_gt r x
    · exact (hloaded r hr).trans (hstored r hr)
    · exact (hkept r hr.not_ge).trans (hv r hr)
  have hset : UnchangedExcept [.I, .V] t { t with I := s.I, V := v } := by
    simp [unchangedExcept_iff, State.readByte]
  refine ⟨t, u, ht, hu, hV, ?_, BitVec.eq_of_toNat_eq (huI.trans htI.symm), fun p hp => ?_⟩
  · rw [State.dataAddr] at h
    rw [htI, Nat.mod_eq_of_lt (by omega)]
  · by_cases hpV : p = .V
    · subst hpV
      exact hV
    · obtain ⟨hmem, hI, hPC⟩ : p ≠ .mem ∧ p ≠ .I ∧ p ≠ .PC := by simpa using hp
      exact ((htframe p hp).trans (hset p (by simp [hI, hpV]))).trans (huframe p (by simp [hI, hPC, hpV]))

end Sys2Proof.Machine
end

section
/-!
The display (spec/44_display.md R190–R193): the cells of a sprite are distinct, so that a draw toggles exactly the cells the
sprite covers; what a second draw of the same sprite does is read off the first draw's cells.
-/

namespace Sys2Proof.Machine

/-! ### 00E0 (R190) -/

/-- Settles O40: the blank framebuffer, and the frame of its row. -/
theorem clearScreen : Obligations.ClearScreen := by
  unfold Obligations.ClearScreen
  exact fun s => ⟨_, rfl, Framebuffer.get_blank, rfl,
    (exec_unchangedExcept_mayChange (i := .cls) rfl rfl).mono (by decide)⟩

/-! ### The cells of a sprite are distinct (R192) -/

/-- The eight columns of a row are distinct modulo 64. -/
theorem rowCells_nodup (x0 y0 : Byte) (r : Nat) (b : Byte) : (rowCells x0 y0 r b).Nodup := by
  rw [rowCells, List.nodup_iff_pairwise_ne, List.pairwise_filterMap]
  refine List.nodup_range.pairwise_of_forall_ne fun c hc d hd hcd p hp q hq hpq => ?_
  obtain ⟨-, ⟨⟩⟩ := Option.ite_none_right_eq_some.mp hp
  obtain ⟨-, ⟨⟩⟩ := Option.ite_none_right_eq_some.mp hq
  have hcol : (x0.toNat + c) % 64 = (x0.toNat + d) % 64 := congrArg (fun p => p.1.val) hpq
  rw [List.mem_range] at hc hd
  omega

/-- Up to 32 rows are distinct modulo 32. -/
theorem spriteCells_nodup (x0 y0 : Byte) (r : Nat) {bs : List Byte} (h : bs.length ≤ 32) :
    (spriteCells x0 y0 r bs).Nodup := by
  induction bs generalizing r with
  | nil => exact List.nodup_nil
  | cons b bs ih =>
    rw [List.length_cons] at h
    refine (rowCells_nodup x0 y0 r b).append (ih (r + 1) (by omega)) ?_
    rintro ⟨cx, cy⟩ hrow hrest
    obtain ⟨-, -, -, -, hy⟩ := (mem_rowCells ..).mp hrow
    obtain ⟨k, _, _, hk, -, -, -, hy'⟩ := (mem_spriteCells ..).mp hrest
    obtain ⟨hlt, -⟩ := List.getElem?_eq_some_iff.mp hk
    omega

/-- Settles O42: a sprite has at most 15 rows. -/
theorem drawVisitsNoCellTwice : Obligations.DrawVisitsNoCellTwice := by
  unfold Obligations.DrawVisitsNoCellTwice
  exact fun s x0 y0 n => spriteCells_nodup x0 y0 0 (by rw [s.spriteBytes_length]; omega)

/-- The cells a draw XORs are those its sprite covers. -/
theorem mem_spriteCells_spriteBytes (s : State) (x0 y0 : Byte) (n : RowCount) (cx : Fin 64) (cy : Fin 32) :
    (cx, cy) ∈ spriteCells x0 y0 0 (s.spriteBytes n) ↔ SpriteCovers s x0 y0 n cx cy := by
  simp only [mem_spriteCells, State.spriteBytes_get, Option.ite_none_right_eq_some, Option.some.injEq, Nat.zero_add,
    SpriteCovers]
  constructor
  · rintro ⟨r, b, c, ⟨hr, rfl⟩, hcell⟩
    exact ⟨r, c, hr, hcell⟩
  · rintro ⟨r, c, hr, hcell⟩
    exact ⟨r, _, c, ⟨hr, rfl⟩, hcell⟩

theorem spriteCovers_congr {s t : State} (hm : ∀ a, t.readByte a = s.readByte a) (hI : t.I = s.I) (x0 y0 : Byte)
    (n : RowCount) (cx : Fin 64) (cy : Fin 32) : SpriteCovers t x0 y0 n cx cy ↔ SpriteCovers s x0 y0 n cx cy := by
  simp only [SpriteCovers, hm, hI]

/-! ### DXYN (R191) -/

section
variable {s t : State} {x y : RegIndex} {n : RowCount}

theorem executeFault_drw_of_inRange (h : n.val = 0 ∨ s.dataAddr (n.val - 1) ≤ 0xFFF) :
    executeFault (.drw x y n) s = none := by
  have hr : s.outOfRange n.val = false := by
    rw [State.dataAddr] at h
    rw [State.outOfRange_eq_false_iff]
    omega
  rw [executeFault_drw, hr, if_neg Bool.false_ne_true]

/-- XOR on the drawn cells, no two of them the same. -/
theorem exec_drw_get (hn : executeFault (.drw x y n) s = none) (ht : exec (.drw x y n) s = .next t) (cx : Fin 64)
    (cy : Fin 32) : t.fb.get cx cy =
      (s.fb.get cx cy ^^ decide ((cx, cy) ∈ spriteCells (s.getV x) (s.getV y) 0 (s.spriteBytes n))) := by
  obtain rfl := eq_of_raise_or_next ht (executeFault_drw x y n s) hn
  exact drawCells_get (drawVisitsNoCellTwice s (s.getV x) (s.getV y) n) s.fb cx cy

/-- VF is the collision: one of the drawn cells was set. -/
theorem exec_drw_getV_VF (hn : executeFault (.drw x y n) s = none) (ht : exec (.drw x y n) s = .next t) :
    t.getV VF = flag ((spriteCells (s.getV x) (s.getV y) 0 (s.spriteBytes n)).any fun c => s.fb.get c.1 c.2) := by
  obtain rfl := eq_of_raise_or_next ht (executeFault_drw x y n s) hn
  rw [State.getV_setV_advance, drawCells_hit (drawVisitsNoCellTwice s (s.getV x) (s.getV y) n)]

end

/-- Settles O41: the cells drawn are those covered, and each is drawn once. -/
theorem drawTogglesSpriteCells : Obligations.DrawTogglesSpriteCells := by
  unfold Obligations.DrawTogglesSpriteCells
  refine fun s x y n => ⟨fun h => ?_, fun hpos => exec_of_outOfRange (Nat.succ_pred_eq_of_pos hpos).symm⟩
  have hn := executeFault_drw_of_inRange (x := x) (y := y) h
  obtain ⟨t, ht, hframe, hpc⟩ := exec_completes hn
  have hget := exec_drw_get hn ht
  have hVF := exec_drw_getV_VF hn ht
  refine ⟨t, ht, fun cx cy hc => ?toggled, fun cx cy hc => ?kept, ?hit, ?miss, fun r hr => ?regs, hpc,
    hframe.mono (by simp [mayChange])⟩
  case toggled => rw [hget, decide_eq_true ((mem_spriteCells_spriteBytes ..).mpr hc), Bool.xor_true]
  case kept => rw [hget, decide_eq_false (mt (mem_spriteCells_spriteBytes ..).mp hc), Bool.xor_false]
  case hit =>
    rintro ⟨cx, cy, hc, hset⟩
    rw [hVF, List.any_eq_true.mpr ⟨(cx, cy), (mem_spriteCells_spriteBytes ..).mpr hc, hset⟩]
    rfl
  case miss =>
    intro hclear
    rw [hVF, List.any_eq_false.mpr fun c hc => ?_]
    · rfl
    · rw [hclear c.1 c.2 ((mem_spriteCells_spriteBytes ..).mp hc)]
      exact Bool.false_ne_true
  case regs => exact exec_getV_of_not_mayWrite ht (decide_eq_false hr)

/-! ### Two draws of one sprite (R193) -/

/-- The second draw of a sprite at the same origin, with no other part than the registers changed in between: it restores
every cell, and it hits where the first draw set a cell (log 7). -/
theorem exec_drw_again {s t t' : State} {x y : RegIndex} {n : RowCount}
    (h : n.val = 0 ∨ s.dataAddr (n.val - 1) ≤ 0xFFF) (ht : exec (.drw x y n) s = .next t)
    (hframe : UnchangedExcept [.V] t t') (hx : t'.getV x = s.getV x) (hy : t'.getV y = s.getV y) :
    ∃ u, exec (.drw x y n) t' = .next u ∧ (∀ cx cy, u.fb.get cx cy = s.fb.get cx cy) ∧
      ((∃ cx cy, SpriteCovers s (s.getV x) (s.getV y) n cx cy ∧ s.fb.get cx cy = false) → u.getV VF = 1) ∧
      ((∀ cx cy, SpriteCovers s (s.getV x) (s.getV y) n cx cy → s.fb.get cx cy = true) → u.getV VF = 0) := by
  obtain ⟨t₁, ht₁, htoggled, hkept, -, -, -, -, hsame⟩ := (drawTogglesSpriteCells s x y n).1 h
  obtain rfl : t = t₁ := Host.Outcome.next.inj (ht.symm.trans ht₁)
  have hmem : ∀ a, t'.readByte a = s.readByte a := (hsame .mem (by decide)).trans (hframe .mem (by decide))
  have hI : t'.I = s.I := (hsame .I (by decide)).trans (hframe .I (by decide))
  have hfb : ∀ cx cy, t'.fb.get cx cy = t.fb.get cx cy := hframe .fb (by decide)
  obtain ⟨u, hu, huToggled, huKept, huHit, huMiss, -⟩ :=
    (drawTogglesSpriteCells t' x y n).1 (by rwa [State.dataAddr, hI])
  simp only [hx, hy, spriteCovers_congr hmem hI, hfb] at huToggled huKept huHit huMiss
  refine ⟨u, hu, fun cx cy => ?restored, fun ⟨cx, cy, hc, hclear⟩ => huHit ⟨cx, cy, hc, ?hit⟩,
    fun hset => huMiss fun cx cy hc => ?miss⟩
  case restored =>
    by_cases hc : SpriteCovers s (s.getV x) (s.getV y) n cx cy
    · rw [huToggled cx cy hc, htoggled cx cy hc, Bool.not_not]
    · rw [huKept cx cy hc, hkept cx cy hc]
  case hit => rw [htoggled cx cy hc, hclear, Bool.not_false]
  case miss => rw [htoggled cx cy hc, hset cx cy hc, Bool.not_true]

/-- Settles O43: with VF set back the origin is the first draw's, whichever registers hold it. -/
theorem drawTwiceRestores : Obligations.DrawTwiceRestores := by
  unfold Obligations.DrawTwiceRestores
  intro s x y n h
  obtain ⟨t, ht, -, -, -, -, hregs, -⟩ := (drawTogglesSpriteCells s x y n).1 h
  have hV (r : RegIndex) : (t.setV VF (s.getV VF)).getV r = s.getV r := by
    rw [State.getV_setV]
    split_ifs with hr
    · rw [hr]
    · exact hregs r hr
  have hframe : UnchangedExcept [.V] t (t.setV VF (s.getV VF)) := by
    simp [unchangedExcept_iff]
  obtain ⟨u, hu, hsecond⟩ := exec_drw_again h ht hframe (hV x) (hV y)
  exact ⟨t, u, ht, hu, hsecond⟩

/-- Refutes O44: on a framebuffer with every cell set, the first draw of the font's first row clears its cells and the second
hits none, though the row 0xF0 has set bits. -/
theorem not_secondDrawReportsCollision : ¬ Obligations.SecondDrawReportsCollision := by
  unfold Obligations.SecondDrawReportsCollision
  intro h
  let s : State := { State.reset with fb := Vector.replicate 32 (Vector.replicate 64 true) }
  have hlit (cx : Fin 64) (cy : Fin 32) : s.fb.get cx cy = true := by simp [s, Framebuffer.get]
  have hrange : (1 : RowCount).val = 0 ∨ s.dataAddr ((1 : RowCount).val - 1) ≤ 0xFFF := .inr (by decide)
  obtain ⟨t, u, ht, hu, hiff⟩ := h s 0 1 1 (by decide) (by decide) hrange
  have hV (r : RegIndex) (hr : r ≠ VF) : t.getV r = s.getV r := exec_getV_of_not_mayWrite ht (decide_eq_false hr)
  obtain ⟨u', hu', -, -, hmiss⟩ :=
    exec_drw_again hrange ht (fun p _ => Unchanged.refl p t) (hV 0 (by decide)) (hV 1 (by decide))
  obtain rfl : u = u' := Host.Outcome.next.inj (hu.symm.trans hu')
  have hone : u.getV VF = 1 := hiff.mpr ⟨0, by decide, by decide⟩
  rw [hmiss fun cx cy _ => hlit cx cy] at hone
  exact absurd hone (by decide)

end Sys2Proof.Machine
end

section
/-!
Key input and the timer registers (spec/45_input_timer_ops.md R210–R216): the key skips, the three transitions of FX0A, and
its wait. A step that leaves the core waiting has found an FX0A at PC and has moved neither PC nor memory (R214).
-/

namespace Sys2Proof.Machine

/-! ### Timer registers (R212, R215, R216) -/

/-- Settles O46: each value is the write's own; PC and frame are those of the tables. -/
theorem timerRegisterMoves : Obligations.TimerRegisterMoves := by
  unfold Obligations.TimerRegisterMoves
  intro s x
  refine ⟨⟨_, rfl, s.getV_setV_advance x s.DT, exec_frame_of_one_register (.ldVxDt x) rfl (fun _ => rfl) rfl⟩,
    ⟨_, rfl, rfl, rfl, ?ldDtVx⟩, ⟨_, rfl, rfl, rfl, ?ldStVx⟩⟩
  case ldDtVx => exact (exec_unchangedExcept_mayChange (i := .ldDtVx x) rfl rfl).mono (by simp [mayChange])
  case ldStVx => exact (exec_unchangedExcept_mayChange (i := .ldStVx x) rfl rfl).mono (by simp [mayChange])

/-! ### Key skips (R210, R211) -/

/-- Settles O45: below 16 the PC of the table, whose key is the one V[X] names; from 16 on the record of R230. -/
theorem keySkipsComplete : Obligations.KeySkipsComplete := by
  unfold Obligations.KeySkipsComplete
  intro s x
  refine ⟨fun k hk => ?key, fun h i hi => ?range⟩
  case key =>
    have hn : ¬ 16 ≤ (s.getV x).toNat := by omega
    have hkey : s.keys[(s.getV x).toNat]? = some s.keys[k.val] := hk ▸ Vector.getElem?_eq_getElem k.isLt
    obtain ⟨t, ht, htframe, htpc⟩ := exec_completes (i := .skp x) (s := s) (if_neg hn)
    obtain ⟨u, hu, huframe, hupc⟩ := exec_completes (i := .sknp x) (s := s) (if_neg hn)
    refine ⟨⟨t, ht, htframe, ?_⟩, ⟨u, hu, huframe, ?_⟩⟩
    · simp [htpc, pcAfter, hkey]
    · cases hp : s.keys[k.val] <;> simp [hupc, pcAfter, hkey, hp]
  case range =>
    have he : executeFault i s = some (.keyRange, zextByte (s.getV x)) := by
      obtain rfl | rfl : i = .skp x ∨ i = .sknp x := by simpa using hi
      · exact if_pos h
      · exact if_pos h
    have hinfo : zextByte (s.getV x) = BitVec.ofNat 16 (s.getV x).toNat := (BitVec.ofNat_toNat ..).symm
    exact hinfo ▸ exec_of_executeFault he

/-! ### FX0A (R213) -/

section
variable {s : State} (x : RegIndex)

theorem exec_ldVxKey_of_idle (hw : s.waiting = false) :
    exec (.ldVxKey x) s = .next { s with prevKeys := s.keys, waiting := true } := by
  simp [exec, execLdVxKey, hw]

theorem exec_ldVxKey_of_no_press (hw : s.waiting = true) (hk : firstNewPress s.prevKeys s.keys = none) :
    exec (.ldVxKey x) s = .next { s with prevKeys := s.keys } := by
  simp [exec, execLdVxKey, hw, hk]

theorem exec_ldVxKey_of_press {k : KeyIndex} (hw : s.waiting = true) (hk : firstNewPress s.prevKeys s.keys = some k) :
    exec (.ldVxKey x) s = .next { s.setV x (BitVec.ofNat 8 k.val) with waiting := false }.advance := by
  simp [exec, execLdVxKey, hw, hk]

end

/-- Settles O47: `firstNewPress` finds the lowest newly pressed key, or that there is none. -/
theorem keyWaitTransitions : Obligations.KeyWaitTransitions := by
  unfold Obligations.KeyWaitTransitions
  intro s x
  refine ⟨fun hw => ?idle, fun hw hnone => ?noPress, fun k hw hk hmin => ?press⟩
  case idle =>
    refine ⟨_, exec_ldVxKey_of_idle x hw, rfl, rfl, ?_⟩
    simp [unchangedExcept_iff, State.readByte, State.getV]
  case noPress =>
    have hf : firstNewPress s.prevKeys s.keys = none := (firstNewPress_none_iff ..).mpr hnone
    refine ⟨_, exec_ldVxKey_of_no_press x hw hf, rfl, ?_⟩
    simp [unchangedExcept_iff, State.readByte, State.getV]
  case press =>
    have hf : firstNewPress s.prevKeys s.keys = some k :=
      (firstNewPress_some_iff ..).mpr ⟨hk, fun j hj hn => absurd (hmin j hn) (not_le.mpr hj)⟩
    have ht := exec_ldVxKey_of_press x hw hf
    refine ⟨_, ht, ?value, fun r hr => exec_getV_of_not_mayWrite ht (decide_eq_false hr), rfl, rfl, ?frame⟩
    case value =>
      have hv : (s.setV x (BitVec.ofNat 8 k.val)).getV x = BitVec.ofNat 8 k.val := by simp
      exact (congrArg BitVec.toNat hv).trans (Nat.mod_eq_of_lt (by omega))
    case frame => simp [unchangedExcept_iff, State.readByte]

/-- FX0A leaves the core waiting only by a snapshot: on the first entry, or with no new press. -/
theorem exec_ldVxKey_frame_of_waiting {x : RegIndex} {s t : State} (h : exec (.ldVxKey x) s = .next t)
    (hw : t.waiting = true) : UnchangedExcept [.waiting, .prevKeys] s t := by
  cases hs : s.waiting with
  | false =>
    rw [exec_ldVxKey_of_idle x hs] at h
    cases h
    simp [unchangedExcept_iff, State.readByte, State.getV]
  | true =>
    cases hk : firstNewPress s.prevKeys s.keys with
    | none =>
      rw [exec_ldVxKey_of_no_press x hs hk] at h
      cases h
      simp [unchangedExcept_iff, State.readByte, State.getV]
    | some k =>
      rw [exec_ldVxKey_of_press x hs hk] at h
      cases h
      cases hw

/-! ### The wait (R214) -/

theorem UnchangedExcept.trans {ps : List Part} {s t u : State} (h : UnchangedExcept ps s t)
    (h' : UnchangedExcept ps t u) : UnchangedExcept ps s u := fun p hp => (h p hp).trans (h' p hp)

theorem unchangedExcept_host (draws : Nat) (script : List Transaction) (s : State) :
    UnchangedExcept [.draws, .script] s { s with draws := draws, script := script } := by
  simp [unchangedExcept_iff, State.readByte, State.getV]

theorem State.fetchedInstr_congr {s t : State} (hp : t.PC = s.PC) (hm : ∀ a, t.readByte a = s.readByte a) :
    t.fetchedInstr = s.fetchedInstr := by
  rw [State.fetchedInstr, State.fetch_congr hp hm, State.fetchedInstr]

theorem waiting_mem_mayChange {i : Instr} (h : .waiting ∈ mayChange i) : ∃ x, i = .ldVxKey x := by
  revert h
  cases i <;> simp [mayChange]

/-- The parts that may change while the core waits: the timers (TICK), the keys (SET_KEYS), the snapshot and the wait flag
(FX0A), the gate and `rnd` (the start of a CYCLE), and the host's own data. -/
def waitParts : List Part := [.DT, .ST, .keys, .prevKeys, .waiting, .loadClosed, .rnd, .draws, .script]

/-- What has happened from `s` to a waiting `t`: `s` was running with an FX0A at PC, the run has begun, and PC, memory and
the fault record are as they were. -/
structure LeftWaiting (s t : State) : Prop where
  running : s.halted = false
  fetched : ∃ x, s.fetchedInstr = some (.ldVxKey x)
  closed : t.loadClosed = true
  frame : UnchangedExcept waitParts s t

theorem LeftWaiting.PC_eq {s t : State} (h : LeftWaiting s t) : t.PC = s.PC := h.frame .PC (by decide)

theorem LeftWaiting.readByte_eq {s t : State} (h : LeftWaiting s t) : ∀ a, t.readByte a = s.readByte a :=
  h.frame .mem (by decide)

theorem LeftWaiting.fetchedInstr_eq {s t : State} (h : LeftWaiting s t) : t.fetchedInstr = s.fetchedInstr :=
  State.fetchedInstr_congr h.PC_eq h.readByte_eq

theorem LeftWaiting.waitingAtKeyWait {s t : State} (h : LeftWaiting s t) : WaitingAtKeyWait t := by
  have hf : t.fault = s.fault := h.frame .fault (by decide)
  exact fun _ => ⟨h.closed, by rw [State.halted, hf]; exact h.running, h.fetchedInstr_eq ▸ h.fetched⟩

theorem LeftWaiting.of_host {draws : Nat} {script : List Transaction} {s t : State}
    (h : LeftWaiting { s with draws := draws, script := script } t) : LeftWaiting s t where
  running := h.running
  fetched := h.fetched
  closed := h.closed
  frame := ((unchangedExcept_host draws script s).mono (by decide)).trans h.frame

section
variable {s t : State} (hs : WaitingAtKeyWait s)
include hs

/-- A waiting core goes on waiting where the wait, the gate, the fault record, PC and memory are left alone. -/
theorem WaitingAtKeyWait.leftWaiting {ps : List Part} (h : UnchangedExcept ps s t) (hw : t.waiting = true)
    (hps : ps ⊆ waitParts) (hwait : .waiting ∉ ps) (hgate : .loadClosed ∉ ps) : LeftWaiting s t := by
  have hsame : t.waiting = s.waiting := h .waiting hwait
  have hclosed : t.loadClosed = s.loadClosed := h .loadClosed hgate
  obtain ⟨hl, hh, hx⟩ := hs (hsame ▸ hw)
  exact ⟨hh, hx, hclosed.trans hl, h.mono hps⟩

theorem WaitingAtKeyWait.leftWaiting_self (hw : s.waiting = true) : LeftWaiting s s :=
  hs.leftWaiting (ps := []) (fun p _ => Unchanged.refl p s) hw (by decide) (by decide) (by decide)

/-- R263: a core that waits refuses LOAD, because its run has begun. -/
theorem WaitingAtKeyWait.load_eq {image : List Byte} (hw : (s.load image).waiting = true) : s.load image = s := by
  have hsame : (s.load image).waiting = s.waiting := unchangedExcept_load image s .waiting (by decide)
  obtain ⟨hl, -, -⟩ := hs (hsame ▸ hw)
  exact State.load_of_loadRefused (by simp [State.loadRefused, hl])

/-- A CYCLE that leaves the core waiting is one of a running core with an FX0A at PC: only FX0A sets `waiting`. -/
theorem WaitingAtKeyWait.cycle_fetches {rnd : Byte} (h : cycle rnd s = .next t) (hw : t.waiting = true) :
    s.halted = false ∧ ∃ x, s.fetchedInstr = some (.ldVxKey x) := by
  by_cases hu : Unchanged .waiting s t
  · have hsame : t.waiting = s.waiting := hu
    exact (hs (hsame ▸ hw)).2
  · constructor
    · by_contra hh
      rw [cycle_of_halted (by simpa using hh)] at h
      cases h
      exact hu (Unchanged.refl _ s)
    · obtain ⟨i, hi, hm⟩ : ∃ i, s.fetchedInstr = some i ∧ .waiting ∈ mayChange i := by
        simpa using cycle_changes h hu
      obtain ⟨x, rfl⟩ := waiting_mem_mayChange hm
      exact ⟨x, hi⟩

theorem WaitingAtKeyWait.cycle_leftWaiting {rnd : Byte} (h : cycle rnd s = .next t) (hw : t.waiting = true) :
    LeftWaiting s t := by
  obtain ⟨hh, x, hx⟩ := hs.cycle_fetches h hw
  rw [cycle_of_fetchedInstr rnd hh hx] at h
  have hframe := exec_ldVxKey_frame_of_waiting h hw
  have hbegin : UnchangedExcept [.loadClosed, .rnd] s (s.beginCycle rnd) := by
    simp [unchangedExcept_iff, State.getV]
  exact ⟨hh, ⟨x, hx⟩, hframe .loadClosed (by decide), (hbegin.mono (by decide)).trans (hframe.mono (by decide))⟩

theorem WaitingAtKeyWait.transact_leftWaiting {tr : Transaction} {r : Result} (h : transact tr s = .next (t, r))
    (hw : t.waiting = true) : LeftWaiting s t := by
  obtain ⟨-, rfl⟩ | ⟨image, -, rfl⟩ | ⟨k, -, rfl⟩ | ⟨rnd, -, hc⟩ | ⟨-, rfl⟩ | ⟨-, rfl⟩ := transact_cases h
  · cases hw
  · have he := hs.load_eq hw
    rw [he] at hw ⊢
    exact hs.leftWaiting_self hw
  · exact hs.leftWaiting (unchangedExcept_setKeys k s) hw (by decide) (by decide) (by decide)
  · exact hs.cycle_leftWaiting hc hw
  · exact hs.leftWaiting (unchangedExcept_tick s) hw (by decide) (by decide) (by decide)
  · exact hs.leftWaiting_self hw

/-- Whatever a step does, if it leaves the core waiting it has found an FX0A at PC and kept PC and memory. -/
theorem WaitingAtKeyWait.step_leftWaiting (h : step s = .next t) (hw : t.waiting = true) : LeftWaiting s t := by
  obtain ⟨-, -, rfl⟩ | ⟨-, -, hc⟩ | ⟨tr, rest, r, -, ht⟩ := step_cases h
  · exact hs.leftWaiting_self hw
  · exact .of_host (WaitingAtKeyWait.cycle_leftWaiting (s := { s with draws := s.draws + 1 }) hs hc hw)
  · exact .of_host (WaitingAtKeyWait.transact_leftWaiting (s := { s with script := rest }) hs ht hw)

end

/-- Settles O58: a step that leaves the core waiting leaves the FX0A it found where it was. -/
theorem stepKeepsWaitingAtKeyWait : Obligations.StepKeepsWaitingAtKeyWait := by
  unfold Obligations.StepKeepsWaitingAtKeyWait
  exact fun s t hs h hw => (hs.step_leftWaiting h hw).waitingAtKeyWait hw

/-- Settles O59: the frame of a step that leaves the core waiting. -/
theorem waitingKeepsPcAndInstruction : Obligations.WaitingKeepsPcAndInstruction := by
  unfold Obligations.WaitingKeepsPcAndInstruction
  intro s t hs _ h hw
  have hl := hs.step_leftWaiting h hw
  exact ⟨hl.PC_eq, hl.readByte_eq, hl.fetchedInstr_eq⟩

end Sys2Proof.Machine
end

section
/-!
Faults and the host's transactions besides CYCLE (spec/60_exceptions.md): every step answers (R234–R236), the record a CYCLE
leaves is the table's (R230, R232, R233), and TICK, SET_KEYS and the reads in full (R241, R248–R250).
-/

namespace Sys2Proof.Machine

/-! ### Every step answers (R234–R236) -/

theorem freeCycle_answers (s : State) : ∃ t, freeCycle s = .next t := by
  unfold freeCycle
  split
  · exact ⟨s, rfl⟩
  · exact cycle_answers _ _

theorem step_answers (s : State) : ∃ t, step s = .next t := by
  cases hs : s.script with
  | nil =>
    rw [step, nextTransaction, hs]
    exact freeCycle_answers s
  | cons tr rest =>
    obtain ⟨t, r, ht⟩ := transact_answers tr { s with script := rest }
    exact ⟨t, by rw [step_of_script hs, ht, stateOf]⟩

/-- Settles O10: a step is a CYCLE or a transaction, a transaction is total or a CYCLE, and a CYCLE enters a fault or runs
`exec`, whose every arm answers. -/
theorem everythingAnswersNext : Obligations.EverythingAnswersNext := by
  unfold Obligations.EverythingAnswersNext
  exact ⟨step_answers, transact_answers, exec_answers⟩

/-! ### The record a CYCLE leaves, by the outcome of the fetch, the decode and the execute step (R233) -/

theorem recordAfterCycle_of_outside {s : State} (hp : 0x0FFF ≤ s.PC.toNat) :
    recordAfterCycle s = ⟨.fetchRange, s.PC, 0, s.PC⟩ := if_pos hp

section
variable {s : State} {op : Word} (hp : s.PC.toNat ≤ 0x0FFE) (hf : s.fetch = some op)
include hp hf

theorem State.wordOfBytes_eq_of_fetch : wordOfBytes (s.readByte s.PC.toNat) (s.readByte (s.PC.toNat + 1)) = op := by
  rw [State.fetch_of_le hp] at hf
  exact Option.some.inj hf

theorem recordAfterCycle_of_illegal (hd : decodeWord op = none) :
    recordAfterCycle s = ⟨.illegalInstruction, s.PC, op, op⟩ := by
  simp [recordAfterCycle, State.wordOfBytes_eq_of_fetch hp hf, hd, show ¬ 0x0FFF ≤ s.PC.toNat by omega]

theorem recordAfterCycle_of_executeFault {i : Instr} {cause : FaultCause} {info : Word} (hd : decodeWord op = some i)
    (he : executeFault i s = some (cause, info)) : recordAfterCycle s = ⟨cause, s.PC, op, info⟩ := by
  simp [recordAfterCycle, State.wordOfBytes_eq_of_fetch hp hf, hd, he, show ¬ 0x0FFF ≤ s.PC.toNat by omega]

theorem recordAfterCycle_of_executeFault_none {i : Instr} (hd : decodeWord op = some i)
    (he : executeFault i s = none) : recordAfterCycle s = s.fault := by
  simp [recordAfterCycle, State.wordOfBytes_eq_of_fetch hp hf, hd, he, show ¬ 0x0FFF ≤ s.PC.toNat by omega]

end

/-- No condition of the table looks at what the start of a CYCLE writes, the gate and `rnd`. -/
theorem executeFault_beginCycle (i : Instr) (rnd : Byte) (s : State) :
    executeFault i (s.beginCycle rnd) = executeFault i s := rfl

theorem cycle_fault_eq_recordAfterCycle {s t : State} {rnd : Byte} (hh : s.halted = false)
    (h : cycle rnd s = .next t) : t.fault = recordAfterCycle s := by
  obtain ⟨hs, -⟩ | ⟨-, hp, hc⟩ | ⟨op, -, hp, hf, hd, hc⟩ | ⟨op, i, -, hp, hf, hd, hc⟩ := cycle_cases rnd s
  · exact absurd (hh ▸ hs) Bool.false_ne_true
  · rw [hc] at h; cases h
    exact (recordAfterCycle_of_outside hp).symm
  · rw [hc] at h; cases h
    exact (recordAfterCycle_of_illegal hp hf hd).symm
  · rw [hc] at h
    obtain ⟨he, ht⟩ | ⟨cause, info, he, rfl⟩ := exec_fault_cases h <;> rw [executeFault_beginCycle] at he
    · exact ht.trans (recordAfterCycle_of_executeFault_none hp hf hd he).symm
    · rw [recordAfterCycle_of_executeFault hp hf hd he, ← encode_of_decodeWord hd]
      rfl

/-- Settles O12: each branch of a running core's CYCLE leaves the record of the table's row; the word of an execute step's
fault is the fetched one because encoding undoes decoding. -/
theorem cycleFaultRecord : Obligations.CycleFaultRecord := by
  unfold Obligations.CycleFaultRecord
  exact ⟨fun _ _ _ => cycle_fault_eq_recordAfterCycle, rfl, rfl, rfl, rfl, rfl, rfl, rfl⟩

/-! ### TICK, SET_KEYS and the reads in a running core (R241, R248–R250) -/

section
variable {s : State} (hh : s.halted = false)
include hh

theorem State.tick_of_running : s.tick = { s with DT := countDown s.DT, ST := countDown s.ST } := by
  simp [State.tick, hh]

theorem State.setKeys_of_running (k : Keys) : s.setKeys k = { s with keys := k } := by
  simp [State.setKeys, hh]

end

/-- Settles O49: both timers go through `countDown`, which is subtraction floored at 0. -/
theorem tickCountsDown : Obligations.TickCountsDown := by
  unfold Obligations.TickCountsDown
  refine fun s => ⟨s.tick, rfl, unchangedExcept_tick s, fun hh => ?running, State.tick_of_halted⟩
  case running =>
    rw [State.tick_of_running hh]
    exact ⟨countDown_toNat s.DT, countDown_toNat s.ST⟩

/-- Settles O50: SET_KEYS replaces the vector or, halted, does nothing; the reads answer with the state they were given. -/
theorem keyInputAndReads : Obligations.KeyInputAndReads := by
  unfold Obligations.KeyInputAndReads
  refine fun s k => ⟨⟨s.setKeys k, rfl, unchangedExcept_setKeys k s, fun hh => ?running,
    fun hh => State.setKeys_of_halted hh k⟩, ⟨s.fb, rfl, fun _ _ => rfl⟩, rfl⟩
  case running => rw [State.setKeys_of_running hh]

end Sys2Proof.Machine
end

section
/-!
LOAD (spec/70_reset_and_hazards.md R263): when it is refused, what it answers in either case, and the bytes it copies.
-/

namespace Sys2Proof.Machine

theorem State.loadRefused_iff {image : List Byte} {s : State} :
    s.loadRefused image = true ↔ s.halted = true ∨ s.loadClosed = true ∨ 3584 < image.length := by
  simp [State.loadRefused, or_assoc]

theorem State.loadRefused_eq_false_iff {image : List Byte} {s : State} :
    s.loadRefused image = false ↔ s.halted = false ∧ s.loadClosed = false ∧ image.length ≤ 3584 := by
  simp [State.loadRefused, and_assoc]

section
variable {s : State} {image : List Byte}

theorem State.load_of_accepted (h : s.loadRefused image = false) :
    s.load image = { s.writeBytes 0x200 image with loadClosed := true } := by
  rw [State.load, h, if_neg Bool.false_ne_true]

theorem transact_load_of_refused (h : s.loadRefused image = true) :
    transact (.load image) s = .next (s, .refused) := by
  rw [transact, State.load_of_loadRefused h, if_pos h]

theorem transact_load_of_accepted (h : s.loadRefused image = false) :
    transact (.load image) s = .next (s.load image, .accepted) := by
  rw [transact, h, if_neg Bool.false_ne_true]

/-- LOAD reaches memory by `writeBytes` alone: closing the gate leaves every byte. -/
theorem State.readByte_load_of_accepted (h : s.loadRefused image = false) (a : Nat) :
    (s.load image).readByte a = (s.writeBytes 0x200 image).readByte a := by
  rw [State.load_of_accepted h]
  exact State.readByte_congr _ rfl rfl a

end

theorem State.readByte_writeBytes_written {s : State} (hm : MemoryCanonical s) (a : Nat) {bs : List Byte} {j : Nat}
    {b : Byte} (hj : bs[j]? = some b) : (s.writeBytes a bs).readByte (a + j) = b := by
  rw [State.readByte_writeBytes hm, if_pos (Nat.le_add_right a j), Nat.add_sub_cancel_left, hj, Option.getD_some]

/-- Settles O51: an accepted LOAD is one `writeBytes` at 0x200 and the closing of the gate; a refused one is the identity. -/
theorem loadCopiesImage : Obligations.LoadCopiesImage := by
  unfold Obligations.LoadCopiesImage
  refine fun s image hm => ⟨fun hh hl hlen => ?accepted,
    fun hr => transact_load_of_refused (State.loadRefused_iff.mpr hr)⟩
  case accepted =>
    have ha : s.loadRefused image = false := State.loadRefused_eq_false_iff.mpr ⟨hh, hl, hlen⟩
    refine ⟨s.load image, transact_load_of_accepted ha, ?gate, fun j b hj => ?copied, fun b hb => ?kept,
      unchangedExcept_load image s⟩
    case gate => rw [State.load_of_accepted ha]
    case copied => exact (State.readByte_load_of_accepted ha _).trans (State.readByte_writeBytes_written hm 0x200 hj)
    case kept => exact (State.readByte_load_of_accepted ha b).trans (bytesKeptOutside_writeBytes hm 0x200 image b hb)

end Sys2Proof.Machine
end
